-- ==== Sys2Proof/Word.lean ====
section
/-! DEFINITION. Words and bytes of the MPE (spec 00_scope.md R12, R13). -/

namespace Sys2Proof

/-- A byte, an unsigned integer 0 to 255 (R13). -/
abbrev Byte := BitVec 8

/-- A command or response word: 32 bits, bit 31 the most significant (R12). -/
abbrev Word := BitVec 32

/-- A byte sequence, its first byte first (R13). -/
abbrev Bytes := List Byte

end Sys2Proof
end

