-- ==== Sys2Proof/Config.lean ====
section
/-! DEFINITION. What is fixed for one MPE instance and is no state: the parameters of spec 00_scope.md R5 to R7.
The machine's own parameters are constants without a body, so a claim about the machine holds for every block size,
capacity and block cipher the spec allows. -/

namespace Sys2Proof

/-- The parameters of an MPE (R5, R6, R7). `E` and `D` take and give exactly one block of `B` bytes, and are total and
pure, as R6 says. -/
structure Params where
  /-- The block size in bytes (R5). -/
  B : Nat
  /-- The most data bytes the host may push for one transformation (R7). -/
  nmax : Nat
  /-- The adapter's answer whether it accepts a key (R6). -/
  keyOk : Bytes → Bool
  /-- The adapter's single-block encryption under a key (R6). -/
  E : Bytes → Vector Byte B → Vector Byte B
  /-- The adapter's single-block decryption under a key (R6). -/
  D : Bytes → Vector Byte B → Vector Byte B

/-- The constraints R5 and R7 put on the parameters: `1 <= B <= 255`, `NMAX <= 2^24 - 256`. -/
def Params.Valid (P : Params) : Prop :=
  1 ≤ P.B ∧ P.B ≤ 255 ∧ P.nmax ≤ 2 ^ 24 - 256

/-- `AdapterInverse` (R6): the one property a claim may assume of the adapter, and only where it says so. -/
def Params.AdapterInverse (P : Params) : Prop :=
  ∀ k : Bytes, P.keyOk k = true → ∀ x : Vector Byte P.B, P.D k (P.E k x) = x

/-- `KCAP`, the capacity of the KEY buffer (R7). -/
def keyCap : Nat := 255

/-- `IVCAP`, the capacity of the IV buffer (R7). -/
def ivCap : Nat := 255

/-- The block size less one, unknown (R5 leaves `B` open between 1 and 255). -/
opaque Config.blockSizePred : Fin 255

/-- The block size `B` of this instance (R5). -/
def Config.blockSize : Nat := Config.blockSizePred.val + 1

/-- `NMAX` of this instance, unknown (R7 leaves it open between 0 and 2^24 - 256). -/
opaque Config.nmaxIndex : Fin 16776961

/-- The adapter's key acceptance, unknown (R6). -/
opaque Config.keyOk : Bytes → Bool

/-- The adapter's block encryption, unknown (R6). -/
opaque Config.encryptBlock : Bytes → Vector Byte Config.blockSize → Vector Byte Config.blockSize

/-- The adapter's block decryption, unknown (R6). -/
opaque Config.decryptBlock : Bytes → Vector Byte Config.blockSize → Vector Byte Config.blockSize

/-- The parameters of the machine. -/
def Config.params : Params where
  B := Config.blockSize
  nmax := Config.nmaxIndex.val
  keyOk := Config.keyOk
  E := Config.encryptBlock
  D := Config.decryptBlock

end Sys2Proof
end

