-- ==== Sys2Proof/Syntax.lean ====
section
/-! DEFINITION. The commands of the MPE, one constructor per row of spec/opcode_table.json (30_encoding.md R82), and the
closed enumerations of 30_encoding.md R83 to R87 and 10_state.md R30, R36. -/

namespace Sys2Proof

/-- The nineteen commands (R82). The operand of a format I8 command is its byte `imm8`, used as it stands (R80). -/
inductive Instr where
  | nop
  | setmode (imm : Byte)
  | setpad (imm : Byte)
  | pushkey (imm : Byte)
  | pushiv (imm : Byte)
  | lock
  | clear
  | pushd (imm : Byte)
  | clrd
  | enc
  | dec
  | popd
  | rdstat
  | rdcfg
  | rdilen
  | rdolen
  | rdklen
  | rdbs
  | rdblk
  deriving DecidableEq, Repr

/-- The names of the commands, without operands (R82). -/
inductive Mnemonic where
  | nop | setmode | setpad | pushkey | pushiv | lock | clear | pushd | clrd | enc | dec | popd
  | rdstat | rdcfg | rdilen | rdolen | rdklen | rdbs | rdblk
  deriving DecidableEq, Repr

/-- The two command formats (R80): no operand, or one byte operand. -/
inductive Format where
  | z
  | i8
  deriving DecidableEq, Repr

/-- The five modes of operation (R85). -/
inductive Mode where
  | cbc | ecb | cfb | ofb | ctr
  deriving DecidableEq, Repr

/-- The four padding schemes (R86); `identity` is the scheme the spec calls None. -/
inductive PadScheme where
  | identity | zero | pkcs5 | pkcs7
  deriving DecidableEq, Repr

/-- The direction of a transformation, the flag `DIR` (R30). -/
inductive Dir where
  | encrypt | decrypt
  deriving DecidableEq, Repr

/-- The five phases (R36); the codes 5 to 7 are never held. -/
inductive Phase where
  | build | ready | pad | run | unpad
  deriving DecidableEq, Repr

/-- The seven error kinds (R230). -/
inductive ErrorKind where
  | unsupportedMode
  | unsupportedPadding
  | invalidKeyLength
  | invalidIVLength
  | blockSizeMismatch
  | inputNotBlockAligned
  | invalidPadding
  deriving DecidableEq, Repr

/-- The seven reasons for refusing a command (R83), a type of their own (R244). -/
inductive Reason where
  | illegal | operand | busy | locked | unlocked | full | empty
  deriving DecidableEq, Repr

/-- The rows of the acceptance table R92, by the phases in which a command is accepted: `always` (NOP and the reads),
`config` (BUILD only), `idle` (CLEAR: BUILD and READY), `data` (READY only). -/
inductive CmdClass where
  | always | config | idle | data
  deriving DecidableEq, Repr

/-- What the decoder makes of a command word: a command, or a word refused before the phase is looked at (R83, R84). -/
inductive Decoded where
  | instr (i : Instr)
  | illegal
  | operand
  deriving DecidableEq, Repr

/-- A line of the spec's assembler (R90): a mnemonic and, for some commands, a numeric operand. -/
structure AsmLine where
  op : Mnemonic
  operand : Option Nat
  deriving DecidableEq, Repr

end Sys2Proof
end

