-- ==== Sys2Proof/Machine/State.lean ====
section
/-! DEFINITION. The state of the MPE (spec 10_state.md R20 to R36, R39, R41), the events that reach it (00_scope.md R8, R9,
R11), its state after reset, and the reasons a step can stop. -/

namespace Sys2Proof.Machine

/-- The complete state of an MPE instance: the tuple of R20, field for field. -/
structure Mpe where
  /-- `FB`, the feedback register: the CBC chaining value, the CFB shift register, the OFB register, the CTR counter (R21).
  It holds `B` bytes, `FB[0]` first. -/
  fb : Bytes
  /-- `KS`, the keystream register: the latest keystream block (R22). -/
  ks : Bytes
  /-- `MODE`, the mode code as stored (R24). -/
  mode : Byte
  /-- `PAD`, the padding code as stored (R25). -/
  pad : Byte
  /-- `KEY`, the key buffer (R26). -/
  key : Bytes
  /-- `IV`, the IV buffer (R27). -/
  iv : Bytes
  /-- `IN`, the input buffer (R28). -/
  inp : Bytes
  /-- `OUT`, the output buffer (R29). -/
  out : Bytes
  /-- `DIR`, the direction flag (R30). -/
  dir : Dir
  /-- `DONE`, the completion flag (R31). -/
  done : Bool
  /-- `ERR`, the error code; `none` is code 0 (R32, R230). -/
  err : Option ErrorKind
  /-- `BLK`, the blocks done (R33). -/
  blk : BitVec 24
  /-- `NBLK`, the blocks to do (R34). -/
  nblk : BitVec 24
  /-- `PHASE`, the sequencing register (R36). -/
  phase : Phase
  deriving DecidableEq, Repr

/-- What reaches the MPE from outside a rule: a command word presented by the host (R11), a turn of the engine (R8, R40),
or the reset input `RST` asserted (R9). -/
inductive Input where
  | command (w : Word)
  | engineTurn
  | assertReset
  deriving DecidableEq, Repr

/-- The two adapter functions that carry a block (R6, R10). -/
inductive AdapterOp where
  | E | D
  deriving DecidableEq, Repr

/-- One entry `(op, block)` of the ghost trace `ATRACE` (R10). -/
structure AdapterCall where
  op : AdapterOp
  block : Bytes
  deriving DecidableEq, Repr

/-- The state of the model: the MPE, and the model's own fields, which are no state of the hardware. -/
structure State where
  /-- The hardware's state (R20). -/
  mpe : Mpe
  /-- What the outside world does next, the next event first. DESIGN CHOICE, assumption 1. -/
  inputs : List Input
  /-- The response words returned so far, oldest first (R11, R81). DESIGN CHOICE, assumption 2. -/
  resps : List Word
  /-- `ATRACE`, the ghost list of adapter calls, oldest first (R10). DESIGN CHOICE, assumption 10. -/
  atrace : List AdapterCall
  deriving DecidableEq, Repr

/-- Why a step of the machine stops. No rule of the spec stops the MPE; each of these stands where the spec gives no
engine step at all, in a state that R38 rules out. All are safe: the model stops where nothing is specified. -/
inductive Fault where
  /-- Raised by the RUN dispatch of R40 when `MODE` names no mode. Safe (assumption 6). -/
  | noModeRule
  /-- Raised by the PAD and UNPAD steps when `PAD` names no scheme (R169). Safe (assumption 6). -/
  | noSchemeRule
  /-- Raised by a block step that would give the adapter a block of another length than `B` bytes, the adapter's
  wrong-length error (R6, R187, R247). Safe (assumption 6). -/
  | adapterLength
  /-- Raised by a block step when `FB` does not hold `B` bytes, which R21 excludes. Safe (assumption 6). -/
  | registerWidth
  deriving DecidableEq, Repr

/-- Why a command has no meaning in the model. A command the MPE itself refuses (NAK, R83) is a next state, not this. -/
inductive Refusal where
  /-- Raised by an arm of `exec` whose command has no meaning yet; no arm is left so. Safe. -/
  | notModelled (mnemonic : String)
  deriving DecidableEq, Repr

/-- What an engine step does (R40): nothing because the engine is idle, a new state with the adapter calls made, or no rule. -/
inductive EngineResult where
  | idle
  | stepped (m : Mpe) (calls : List AdapterCall)
  | stuck (f : Fault)
  deriving DecidableEq, Repr

/-- The reset value of every piece of state, the table of R41. -/
def Mpe.reset (P : Params) : Mpe where
  fb := List.replicate P.B 0
  ks := List.replicate P.B 0
  mode := 0
  pad := 0
  key := []
  iv := []
  inp := []
  out := []
  dir := .encrypt
  done := false
  err := none
  blk := 0
  nblk := 0
  phase := .build

/-- The machine right after reset: R41 and R260; no event is waiting and none has been answered. -/
def State.reset : State where
  mpe := Mpe.reset Config.params
  inputs := []
  resps := []
  atrace := []

end Sys2Proof.Machine
end

