-- ==== Sys2Proof/Machine/Ops.lean ====
section
/-! DEFINITION. The named operations the meanings are written over: byte sequences (spec 00_scope.md R13), the adapter call
(R6, R10), response words (30_encoding.md R81), the acceptance table (R92), and error entry `fail` (60_exceptions.md R238).
There is no return from an error (R241): `ERR` is cleared by the next ENC, DEC, CLRD or CLEAR, and nothing is restored. -/

namespace Sys2Proof.Machine

/-- `rep(n, v)` (R13). -/
def rep (n : Nat) (v : Byte) : Bytes := List.replicate n v

/-- `xor(a, b)` (R13): bytewise, as long as `a`, using the first `len(a)` bytes of `b`. -/
def xorBytes (a b : Bytes) : Bytes := List.zipWith (fun x y => x ^^^ y) a b

/-- `ceil(x / y)` (R13). -/
def ceilDiv (x y : Nat) : Nat := (x + y - 1) / y

/-- The low 24 bits of a count, as the 24-bit registers and payloads hold it (R33, R34, R81). -/
def count24 (n : Nat) : BitVec 24 := BitVec.ofNat 24 n

end Sys2Proof.Machine

namespace Sys2Proof

/-- `E(k, x)` on a byte sequence of `B` bytes (R6); no rule uses it on another length. -/
def Params.enc (P : Params) (k x : Bytes) : Bytes :=
  if h : x.length = P.B then (P.E k ⟨x.toArray, by simpa using h⟩).toArray.toList else []

/-- `D(k, x)` on a byte sequence of `B` bytes (R6); no rule uses it on another length. -/
def Params.dec (P : Params) (k x : Bytes) : Bytes :=
  if h : x.length = P.B then (P.D k ⟨x.toArray, by simpa using h⟩).toArray.toList else []

end Sys2Proof

namespace Sys2Proof.Machine

/-- A call `E(KEY, x)` inside an engine step. A block of another length is the adapter's wrong-length error (R6, R247). -/
def callE (P : Params) (k x : Bytes) (use : Bytes → EngineResult) : EngineResult :=
  if x.length = P.B then use (P.enc k x) else .stuck .adapterLength

/-- A call `D(KEY, x)` inside an engine step, as `callE`. -/
def callD (P : Params) (k x : Bytes) (use : Bytes → EngineResult) : EngineResult :=
  if x.length = P.B then use (P.dec k x) else .stuck .adapterLength

/-- The refusal reason codes (R83). -/
def reasonCode : Reason → BitVec 7
  | .illegal => 1
  | .operand => 2
  | .busy => 3
  | .locked => 4
  | .unlocked => 5
  | .full => 6
  | .empty => 7

/-- `ack(p)` (R81): NAK bit 0, bits 30:24 zero, the payload in bits 23:0. -/
def ackWord (p : BitVec 24) : Word := p.setWidth 32

/-- `nak(r)` (R81): NAK bit 1, the reason in bits 30:24, bits 23:0 zero. -/
def nakWord (r : Reason) : Word := 0x80000000#32 ||| ((reasonCode r).setWidth 32 <<< 24)

/-- The phase checks of R83 as the table R92 lays them out: the reason a command of this class is refused in this phase. -/
def phaseCheck (c : CmdClass) (p : Phase) : Option Reason :=
  match c with
  | .always => none
  | .config =>
    match p with
    | .build => none
    | .ready => some .locked
    | .pad | .run | .unpad => some .busy
  | .idle =>
    match p with
    | .build | .ready => none
    | .pad | .run | .unpad => some .busy
  | .data =>
    match p with
    | .build => some .unlocked
    | .ready => none
    | .pad | .run | .unpad => some .busy

/-- A command behind its phase check (R84): refused with nothing written (R83), or its own rule's new state and response. -/
def gated (c : CmdClass) (m : Mpe) (accepted : Mpe × Word) : Mpe × Word :=
  match phaseCheck c m.phase with
  | some r => (m, nakWord r)
  | none => accepted

/-- `fail(code)`, error entry (R238): the code recorded, the data buffers emptied, `FB` and `KS` zeroed, the engine idle.
`MODE`, `PAD`, `KEY`, `IV`, `DIR`, `BLK`, `NBLK` are unchanged. -/
def fail (P : Params) (e : ErrorKind) (m : Mpe) : Mpe :=
  { m with
    err := some e
    done := false
    inp := []
    out := []
    fb := rep P.B 0
    ks := rep P.B 0
    phase := .ready }

/-- The state after a command that left the MPE in `r.1` and returned the response word `r.2` (R11). -/
def State.reply (s : State) (r : Mpe × Word) : State :=
  { s with mpe := r.1, resps := s.resps ++ [r.2] }

/-- A command is one atomic transaction (R11, R63): a next state that holds the new MPE and the response. -/
def State.respond (s : State) (r : Mpe × Word) : Host.Outcome State Fault Refusal :=
  .next (s.reply r)

end Sys2Proof.Machine
end

