-- ==== Sys2Proof/Machine/Operands.lean ====
section
/-! DEFINITION. What the numbers of the operands, registers and payloads stand for (spec 30_encoding.md R85, R86, R87;
10_state.md R30, R31, R36; 60_exceptions.md R230), and the byte and pair payloads (R122, R124, R127). -/

namespace Sys2Proof.Machine

/-- The mode a mode code names (R85); 0 and 6 to 255 name none. -/
def modeOf (c : Byte) : Option Mode :=
  if c = 1 then some .cbc
  else if c = 2 then some .ecb
  else if c = 3 then some .cfb
  else if c = 4 then some .ofb
  else if c = 5 then some .ctr
  else none

/-- The code of a mode (R85), the operand names `CBC ECB CFB OFB CTR` of R90. -/
def modeCode : Mode → Byte
  | .cbc => 1
  | .ecb => 2
  | .cfb => 3
  | .ofb => 4
  | .ctr => 5

/-- The modes that require block alignment, CBC and ECB (R85, glossary of 00_scope.md). -/
def blockMode : Mode → Bool
  | .cbc | .ecb => true
  | .cfb | .ofb | .ctr => false

/-- The scheme a padding code names (R86); 0 and 5 to 255 name none. -/
def schemeOf (c : Byte) : Option PadScheme :=
  if c = 1 then some .identity
  else if c = 2 then some .zero
  else if c = 3 then some .pkcs5
  else if c = 4 then some .pkcs7
  else none

/-- The code of a scheme (R86), the operand names `NONE ZERO PKCS5 PKCS7` of R90. -/
def schemeCode : PadScheme → Byte
  | .identity => 1
  | .zero => 2
  | .pkcs5 => 3
  | .pkcs7 => 4

/-- The error codes (R230). -/
def errorCode : ErrorKind → Byte
  | .unsupportedMode => 1
  | .unsupportedPadding => 2
  | .invalidKeyLength => 3
  | .invalidIVLength => 4
  | .blockSizeMismatch => 5
  | .inputNotBlockAligned => 6
  | .invalidPadding => 7

/-- The value of `ERR`: 0 when there is no error (R32, R230). -/
def errCode : Option ErrorKind → Byte
  | none => 0
  | some e => errorCode e

/-- The phase codes (R36). -/
def phaseCode : Phase → BitVec 3
  | .build => 0
  | .ready => 1
  | .pad => 2
  | .run => 3
  | .unpad => 4

/-- The value of `DIR` (R30). -/
def dirBit : Dir → BitVec 1
  | .encrypt => 0
  | .decrypt => 1

/-- The value of `DONE` (R31). -/
def doneBit (d : Bool) : BitVec 1 := BitVec.ofBool d

/-- A byte payload in bits 7:0, bits 23:8 zero (R70, R122). -/
def bytePayload (b : Byte) : BitVec 24 := b.setWidth 24

/-- A payload of two bytes: `lo` in bits 7:0, `hi` in bits 15:8, bits 23:16 zero (R124, R127). -/
def pairPayload (lo hi : Byte) : BitVec 24 := (0#8 ++ hi) ++ lo

end Sys2Proof.Machine
end

