-- ==== Sys2Proof/Machine/Flags.lean ====
section
/-! DEFINITION. The flags `DIR`, `DONE` and the status field `ERR` (spec 10_state.md R30, R31, R32), and the STATUS view
(R35, R123). -/

namespace Sys2Proof.Machine

/-- The STATUS view (R35): bits 2:0 `PHASE`, bit 3 `DONE`, bit 4 `DIR`, bits 7:5 zero, bits 15:8 `ERR`, bits 23:16 zero. -/
def statusView (m : Mpe) : BitVec 24 :=
  0#8 ++ errCode m.err ++ 0#3 ++ dirBit m.dir ++ doneBit m.done ++ phaseCode m.phase

/-- The flags when a transformation starts (R144): `DIR` the direction, `DONE` and `ERR` cleared. -/
def startFlags (d : Dir) (m : Mpe) : Mpe := { m with dir := d, done := false, err := none }

/-- The flags CLRD clears (R121): `DONE` and `ERR`; `DIR` stays. -/
def clearFlags (m : Mpe) : Mpe := { m with done := false, err := none }

/-- A transformation completed (R145, R171): `DONE` set, the engine idle in READY. -/
def complete (m : Mpe) : Mpe := { m with done := true, phase := .ready }

end Sys2Proof.Machine
end

