-- ==== Sys2Proof/Machine/Padding.lean ====
section
/-! DEFINITION. The padding adder and remover, and the PAD and UNPAD engine steps (spec 43_padding.md R161 to R171). -/

namespace Sys2Proof.Machine

/-- `PadLen(L, bs)` (R161), always at least one (R173), the length that law 1 of R172 adds. -/
def padLen (len bs : Nat) : Nat := bs - len % bs

/-- `ApplyNone` (R166). -/
def applyNone (data : Bytes) : Bytes := data

/-- `ApplyZero` (R164). -/
def applyZero (data : Bytes) (bs : Nat) : Bytes := data ++ rep (padLen data.length bs) 0

/-- `ApplyPKCS7` (R162): `n` bytes of value `n`. -/
def applyPkcs7 (data : Bytes) (bs : Nat) : Bytes :=
  data ++ rep (padLen data.length bs) (BitVec.ofNat 8 (padLen data.length bs))

/-- `ApplyPKCS5` (R163): PKCS7 with the block size 8. -/
def applyPkcs5 (data : Bytes) : Bytes := applyPkcs7 data 8

/-- `RemoveNone` (R166). -/
def removeNone (data : Bytes) : Bytes := data

/-- The backward scan of R165: from the length `i`, down past zero bytes, the bound `i > 0` tested first. -/
def zeroScan (data : Bytes) : Nat → Nat
  | 0 => 0
  | i + 1 => if data.getD i 0 = 0 then zeroScan data i else i + 1

/-- `RemoveZero` (R165), the loss that law 3 of R172 documents. -/
def removeZero (data : Bytes) : Bytes := data.take (zeroScan data data.length)

/-- `RemovePKCS7` (R167): `none` is the spec's `invalid`. Only the last byte is examined. -/
def removePkcs7 (data : Bytes) (bs : Nat) : Option Bytes :=
  match data.getLast? with
  | none => none
  | some v =>
    if v = 0 ∨ v.toNat > bs ∨ v.toNat > data.length then none
    else some (data.take (data.length - v.toNat))

/-- `RemovePKCS5` (R168). -/
def removePkcs5 (data : Bytes) : Option Bytes := removePkcs7 data 8

/-- `Apply(data, p)` with the block size `bs` (R169). Its laws are R172's: `applyPad_aligned`, `removePad_applyPad`. -/
def applyPad (bs : Nat) (data : Bytes) : PadScheme → Bytes
  | .identity => applyNone data
  | .zero => applyZero data bs
  | .pkcs5 => applyPkcs5 data
  | .pkcs7 => applyPkcs7 data bs

/-- `Remove(data, p)` with the block size `bs` (R169). Its laws are R172's: `removePad_applyPad`, `removePad_applyPad_zero`,
`removeZero_eq_self_iff`, `removePad_length_lt`. -/
def removePad (bs : Nat) (data : Bytes) : PadScheme → Option Bytes
  | .identity => some (removeNone data)
  | .zero => some (removeZero data)
  | .pkcs5 => removePkcs5 data
  | .pkcs7 => removePkcs7 data bs

/-- The PAD step (R170). `NBLK` is `ceil(len(IN') / B)` (R34), the exact quotient of R170 wherever R170's division is exact
(assumption 7). -/
def padStep (P : Params) (m : Mpe) : EngineResult :=
  match schemeOf m.pad with
  | none => .stuck .noSchemeRule
  | some sch =>
    let padded := applyPad P.B m.inp sch
    .stepped { m with inp := padded, nblk := count24 (ceilDiv padded.length P.B), phase := .run } []

/-- The UNPAD step (R171). -/
def unpadStep (P : Params) (m : Mpe) : EngineResult :=
  match schemeOf m.pad with
  | none => .stuck .noSchemeRule
  | some sch =>
    match removePad P.B m.out sch with
    | none => .stepped (fail P .invalidPadding m) []
    | some r => .stepped (complete { m with out := r }) []

end Sys2Proof.Machine
end

