-- ==== Sys2Proof/Machine/BlockModes.lean ====
section
/-! DEFINITION. The RUN block steps of the block modes: CBC and ECB (spec 44_block_modes.md R180 to R185). -/

namespace Sys2Proof.Machine

/-- Fetch and emit of the block pipeline (R180): the block leaves `IN`, `y` is appended to `OUT`, `BLK` counts it. -/
def emitBlock (n : Nat) (y : Bytes) (m : Mpe) : Mpe :=
  { m with inp := m.inp.drop n, out := m.out ++ y, blk := m.blk + 1 }

/-- The CBC encrypt block step (R181): XOR before the cipher, the ciphertext block fed back. -/
def cbcEncStep (P : Params) (m : Mpe) : EngineResult :=
  let x := xorBytes m.fb (m.inp.take P.B)
  callE P m.key x fun y => .stepped { emitBlock P.B y m with fb := y } [⟨.E, x⟩]

/-- The CBC decrypt block step (R182): XOR after the cipher, the ciphertext block that was consumed fed back. -/
def cbcDecStep (P : Params) (m : Mpe) : EngineResult :=
  let x := m.inp.take P.B
  callD P m.key x fun d => .stepped { emitBlock P.B (xorBytes d m.fb) m with fb := x } [⟨.D, x⟩]

/-- The ECB encrypt block step (R184): `FB` neither read nor written. -/
def ecbEncStep (P : Params) (m : Mpe) : EngineResult :=
  let x := m.inp.take P.B
  callE P m.key x fun y => .stepped (emitBlock P.B y m) [⟨.E, x⟩]

/-- The ECB decrypt block step (R185). -/
def ecbDecStep (P : Params) (m : Mpe) : EngineResult :=
  let x := m.inp.take P.B
  callD P m.key x fun y => .stepped (emitBlock P.B y m) [⟨.D, x⟩]

end Sys2Proof.Machine
end

