-- ==== Sys2Proof/Machine/StreamModes.lean ====
section
/-! DEFINITION. The RUN block steps of the stream modes: CFB, OFB, CTR, and the counter increment
(spec 45_stream_modes.md R200 to R206). -/

namespace Sys2Proof.Machine

/-- The carry chain of `inc_be` on the bytes from the least significant on: add one, carry on past a byte that wraps to 0. -/
def incCarry : Bytes → Bytes
  | [] => []
  | b :: rest => if b = 0xFF then 0 :: incCarry rest else (b + 1) :: rest

/-- `inc_be` (R206), the loop form: carries run from the last byte towards the first, the carry out of the first is dropped. -/
def incBe (c : Bytes) : Bytes := (incCarry c.reverse).reverse

/-- The stream step (R200): one keystream block `K = E(KEY, FB)`, the segment XORed with the keystream's first bytes, and `FB`
advanced by what the mode supplies, `next FB K X Y`. -/
def streamStep (P : Params) (nextFb : Bytes → Bytes → Bytes → Bytes → Bytes) (m : Mpe) : EngineResult :=
  let seg := min P.B m.inp.length
  let x := m.inp.take seg
  callE P m.key m.fb fun k =>
    let y := xorBytes x k
    .stepped { emitBlock seg y m with ks := k, fb := nextFb m.fb k x y } [⟨.E, m.fb⟩]

/-- CFB, encrypting (R201): the ciphertext just produced is shifted in at the end. -/
def cfbEncNext (fb _k x y : Bytes) : Bytes := fb.drop x.length ++ y

/-- CFB, decrypting (R202): the ciphertext that was given is shifted in. -/
def cfbDecNext (fb _k x _y : Bytes) : Bytes := fb.drop x.length ++ x

/-- OFB (R204): the whole keystream block. -/
def ofbNext (_fb k _x _y : Bytes) : Bytes := k

/-- CTR (R205): the counter incremented. -/
def ctrNext (fb _k _x _y : Bytes) : Bytes := incBe fb

/-- The CFB encrypt block step (R201). -/
def cfbEncStep (P : Params) (m : Mpe) : EngineResult := streamStep P cfbEncNext m

/-- The CFB decrypt block step (R202). -/
def cfbDecStep (P : Params) (m : Mpe) : EngineResult := streamStep P cfbDecNext m

/-- The OFB block step (R204), in either direction. -/
def ofbStep (P : Params) (m : Mpe) : EngineResult := streamStep P ofbNext m

/-- The CTR block step (R205), in either direction. -/
def ctrStep (P : Params) (m : Mpe) : EngineResult := streamStep P ctrNext m

end Sys2Proof.Machine
end

