-- ==== Sys2Proof/Machine/Transform.lean ====
section
/-! DEFINITION. The validator, the commands ENC and DEC, and the end-of-RUN step
(spec 42_transform_commands.md R140 to R145). -/

namespace Sys2Proof.Machine

/-- `ValidateOf(m, p, k, v)`, the configuration check of R140 on its arguments (R148), in the order R140 gives. -/
def validateOf (P : Params) (mode pad : Byte) (key iv : Bytes) : Option ErrorKind :=
  match modeOf mode with
  | none => some .unsupportedMode
  | some md =>
    match schemeOf pad with
    | none => some .unsupportedPadding
    | some sch =>
      if P.keyOk key = false then some .invalidKeyLength
      else if md ≠ .ecb ∧ iv.length ≠ P.B then some .invalidIVLength
      else if sch = .pkcs5 ∧ P.B ≠ 8 then some .blockSizeMismatch
      else none

/-- `Validate()` (R140). -/
def validate (P : Params) (m : Mpe) : Option ErrorKind := validateOf P m.mode m.pad m.key m.iv

/-- `AlignCheck(d)` (R141): a block mode needs an aligned length, unless the padding adder will align it. -/
def alignCheck (P : Params) (d : Dir) (m : Mpe) : Option ErrorKind :=
  if (m.mode = 1 ∨ m.mode = 2) ∧ (d = .decrypt ∨ m.pad = 1) ∧ m.inp.length % P.B ≠ 0 then
    some .inputNotBlockAligned
  else none

/-- The error that ENC or DEC finds before any cipher operation, the first that applies (R144, R239). -/
def startError (P : Params) (d : Dir) (m : Mpe) : Option ErrorKind :=
  match validate P m with
  | some e => some e
  | none => alignCheck P d m

/-- What `Start(d)` writes whatever validation finds (R144). -/
def startClear (P : Params) (d : Dir) (m : Mpe) : Mpe :=
  { startFlags d m with out := [], blk := 0, nblk := 0, ks := rep P.B 0 }

/-- `Start(d)` (R144): the error entered and returned, or `FB` loaded and the engine started at PAD (an encryption in a
block mode) or at RUN with `NBLK = ceil(len(IN) / B)`. -/
def start (P : Params) (d : Dir) (m : Mpe) : Mpe × Word :=
  match startError P d m with
  | some e => (fail P e (startClear P d m), ackWord (bytePayload (errorCode e)))
  | none =>
    let m' := { startClear P d m with fb := if m.mode = 2 then rep P.B 0 else m.iv }
    if d = .encrypt ∧ (m.mode = 1 ∨ m.mode = 2) then
      ({ m' with phase := .pad }, ackWord 0)
    else
      ({ m' with nblk := count24 (ceilDiv m.inp.length P.B), phase := .run }, ackWord 0)

/-- ENC (R142). -/
def cmdEnc (P : Params) (m : Mpe) : Mpe × Word := gated .data m (start P .encrypt m)

/-- DEC (R143). -/
def cmdDec (P : Params) (m : Mpe) : Mpe × Word := gated .data m (start P .decrypt m)

/-- The end-of-RUN step (R145): UNPAD follows a decryption in a block mode, otherwise the transformation is complete. -/
def endOfRunStep (m : Mpe) : EngineResult :=
  if m.dir = .decrypt ∧ (m.mode = 1 ∨ m.mode = 2) then
    .stepped { m with phase := .unpad } []
  else
    .stepped (complete m) []

/-- The meaning of ENC (R142). -/
def execEnc (s : State) : Host.Outcome State Fault Refusal := s.respond (cmdEnc Config.params s.mpe)

/-- The meaning of DEC (R143). -/
def execDec (s : State) : Host.Outcome State Fault Refusal := s.respond (cmdDec Config.params s.mpe)

end Sys2Proof.Machine
end

