-- ==== Sys2Proof/Machine/Engine.lean ====
section
/-! DEFINITION. The engine step and its dispatch (spec 10_state.md R40). -/

namespace Sys2Proof.Machine

/-- The block step of each mode and direction, the table of R40. -/
def modeStep (P : Params) (md : Mode) (d : Dir) (m : Mpe) : EngineResult :=
  match md, d with
  | .cbc, .encrypt => cbcEncStep P m
  | .cbc, .decrypt => cbcDecStep P m
  | .ecb, .encrypt => ecbEncStep P m
  | .ecb, .decrypt => ecbDecStep P m
  | .cfb, .encrypt => cfbEncStep P m
  | .cfb, .decrypt => cfbDecStep P m
  | .ofb, _ => ofbStep P m
  | .ctr, _ => ctrStep P m

/-- One RUN block step, chosen by `MODE` and `DIR` (R40). `FB` holds `B` bytes (R21), else no rule applies. -/
def blockStep (P : Params) (m : Mpe) : EngineResult :=
  if m.fb.length ≠ P.B then .stuck .registerWidth
  else
    match modeOf m.mode with
    | some md => modeStep P md m.dir m
    | none => .stuck .noModeRule

/-- `EngineStep` (R40): enabled exactly when `PHASE` is PAD, RUN or UNPAD. -/
def engineStep (P : Params) (m : Mpe) : EngineResult :=
  match m.phase with
  | .build | .ready => .idle
  | .pad => padStep P m
  | .run => if m.blk < m.nblk then blockStep P m else endOfRunStep m
  | .unpad => unpadStep P m

/-- A turn of the engine of the machine: nothing while it is idle; otherwise the step, its adapter calls appended to the
ghost trace (R10, R183, R203). -/
def engineTurn (s : State) : Host.Outcome State Fault Refusal :=
  match engineStep Config.params s.mpe with
  | .idle => .next s
  | .stepped m calls => .next { s with mpe := m, atrace := s.atrace ++ calls }
  | .stuck f => .fault f

/-- The reset input asserted (R9, R260): every piece of the hardware's state to its reset value, in any phase. -/
def assertReset (s : State) : Host.Outcome State Fault Refusal :=
  .next { s with mpe := Mpe.reset Config.params }

end Sys2Proof.Machine
end

