-- ==== Sys2Proof/WellFormed.lean ====
section
/-! DEFINITION. Well-formed commands: the checks an assembler line must pass (spec 30_encoding.md R80, R90), and the line
of a command. -/

namespace Sys2Proof

/-- The checks on a line: a format Z command has no operand, a format I8 command has one, and it fits a byte (R80). -/
def AsmLine.wellFormed (l : AsmLine) : Bool :=
  match l.op with
  | .setmode | .setpad | .pushkey | .pushiv | .pushd =>
    match l.operand with
    | some n => decide (n < 256)
    | none => false
  | .nop | .lock | .clear | .clrd | .enc | .dec | .popd
  | .rdstat | .rdcfg | .rdilen | .rdolen | .rdklen | .rdbs | .rdblk => l.operand.isNone

/-- The line that writes a command. -/
def Instr.line : Instr → AsmLine
  | .nop => ⟨.nop, none⟩
  | .setmode imm => ⟨.setmode, some imm.toNat⟩
  | .setpad imm => ⟨.setpad, some imm.toNat⟩
  | .pushkey imm => ⟨.pushkey, some imm.toNat⟩
  | .pushiv imm => ⟨.pushiv, some imm.toNat⟩
  | .lock => ⟨.lock, none⟩
  | .clear => ⟨.clear, none⟩
  | .pushd imm => ⟨.pushd, some imm.toNat⟩
  | .clrd => ⟨.clrd, none⟩
  | .enc => ⟨.enc, none⟩
  | .dec => ⟨.dec, none⟩
  | .popd => ⟨.popd, none⟩
  | .rdstat => ⟨.rdstat, none⟩
  | .rdcfg => ⟨.rdcfg, none⟩
  | .rdilen => ⟨.rdilen, none⟩
  | .rdolen => ⟨.rdolen, none⟩
  | .rdklen => ⟨.rdklen, none⟩
  | .rdbs => ⟨.rdbs, none⟩
  | .rdblk => ⟨.rdblk, none⟩

/-- A command is well-formed when its line is. The operand's type is a byte, so every command is. -/
def Instr.wellFormed (i : Instr) : Bool := i.line.wellFormed

end Sys2Proof
end

