-- ==== Sys2Proof/Decode.lean ====
section
/-! DEFINITION. The opcode table, the decoder, and after it the encoder (spec 30_encoding.md R80, R82, R83, R84, R88). -/

namespace Sys2Proof

/-- The column `match` of the table R82. -/
def Mnemonic.pattern : Mnemonic → Word
  | .nop => 0x00000000
  | .setmode => 0x01000000
  | .setpad => 0x02000000
  | .pushkey => 0x03000000
  | .pushiv => 0x04000000
  | .lock => 0x05000000
  | .clear => 0x06000000
  | .pushd => 0x08000000
  | .clrd => 0x09000000
  | .enc => 0x0A000000
  | .dec => 0x0B000000
  | .popd => 0x0C000000
  | .rdstat => 0x10000000
  | .rdcfg => 0x11000000
  | .rdilen => 0x12000000
  | .rdolen => 0x13000000
  | .rdklen => 0x14000000
  | .rdbs => 0x15000000
  | .rdblk => 0x16000000

/-- The column `format` of the table R82. -/
def Mnemonic.format : Mnemonic → Format
  | .setmode | .setpad | .pushkey | .pushiv | .pushd => .i8
  | .nop | .lock | .clear | .clrd | .enc | .dec | .popd
  | .rdstat | .rdcfg | .rdilen | .rdolen | .rdklen | .rdbs | .rdblk => .z

/-- The column `mask` of the table R82: all bits but those of `imm8`. -/
def Format.mask : Format → Word
  | .z => 0xFFFFFFFF
  | .i8 => 0xFFFFFF00

/-- The rows of the table R82, in its order. -/
def allMnemonics : List Mnemonic :=
  [.nop, .setmode, .setpad, .pushkey, .pushiv, .lock, .clear, .pushd, .clrd, .enc, .dec, .popd,
    .rdstat, .rdcfg, .rdilen, .rdolen, .rdklen, .rdbs, .rdblk]

/-- The opcode `cmd[31:24]` (R80). -/
def opcodeField (w : Word) : BitVec 8 := w.extractLsb' 24 8

/-- The byte operand `cmd[7:0]` (R80). -/
def immField (w : Word) : Byte := w.extractLsb' 0 8

/-- The command a mnemonic and a byte operand name; a format Z command drops the operand. -/
def Mnemonic.toInstr (imm : Byte) : Mnemonic → Instr
  | .nop => .nop
  | .setmode => .setmode imm
  | .setpad => .setpad imm
  | .pushkey => .pushkey imm
  | .pushiv => .pushiv imm
  | .lock => .lock
  | .clear => .clear
  | .pushd => .pushd imm
  | .clrd => .clrd
  | .enc => .enc
  | .dec => .dec
  | .popd => .popd
  | .rdstat => .rdstat
  | .rdcfg => .rdcfg
  | .rdilen => .rdilen
  | .rdolen => .rdolen
  | .rdklen => .rdklen
  | .rdbs => .rdbs
  | .rdblk => .rdblk

/-- Decoding (R82, R83, R84): the opcode alone selects the command; an unassigned opcode is ILLEGAL; an assigned opcode
whose must-be-zero bits are not all zero is OPERAND. -/
def decode (w : Word) : Decoded :=
  match allMnemonics.find? (fun m => opcodeField m.pattern == opcodeField w) with
  | none => .illegal
  | some m => if w &&& m.format.mask = m.pattern then .instr (m.toInstr (immField w)) else .operand

/-- The instruction the decoder reads from the `nbits` low bits of `w`, every bit above them zero. A command is one 32-bit
word given by bit number (R70, R80), so the word is presented as it stands. -/
def decodeTableWord (nbits w : Nat) : Option Instr :=
  match decode (BitVec.ofNat 32 (w % 2 ^ nbits)) with
  | .instr i => some i
  | .illegal => none
  | .operand => none

/-- The mnemonic of a command. -/
def Instr.mnemonic (i : Instr) : Mnemonic := i.line.op

/-- The byte operand of a command, 0 where it has none. -/
def Instr.imm : Instr → Byte
  | .setmode imm | .setpad imm | .pushkey imm | .pushiv imm | .pushd imm => imm
  | .nop | .lock | .clear | .clrd | .enc | .dec | .popd
  | .rdstat | .rdcfg | .rdilen | .rdolen | .rdklen | .rdbs | .rdblk => 0

/-- Encoding: the row's `match` word with the operand in bits 7:0 (R80, R82). -/
def encode (i : Instr) : Word := i.mnemonic.pattern ||| i.imm.setWidth 32

/-- Assembling a line of R90: refused unless it is well-formed. -/
def AsmLine.assemble (l : AsmLine) : Option Instr :=
  if l.wellFormed then some (l.op.toInstr (BitVec.ofNat 8 (l.operand.getD 0))) else none

end Sys2Proof
end

