-- ==== Sys2Proof/Machine/Configure.lean ====
section
/-! DEFINITION. The configuration commands NOP, SETMODE, SETPAD, PUSHKEY, PUSHIV, LOCK, CLEAR
(spec 40_config_commands.md R100 to R106). The `cmd` functions act on the MPE alone, for any parameters; the meanings
`exec` apply them to the machine. -/

namespace Sys2Proof.Machine

/-- NOP (R100): no effect, in every phase. -/
def cmdNop (m : Mpe) : Mpe × Word := gated .always m (m, ackWord 0)

/-- SETMODE (R101): any code is stored. -/
def cmdSetmode (imm : Byte) (m : Mpe) : Mpe × Word := gated .config m ({ m with mode := imm }, ackWord 0)

/-- SETPAD (R102): any code is stored. -/
def cmdSetpad (imm : Byte) (m : Mpe) : Mpe × Word := gated .config m ({ m with pad := imm }, ackWord 0)

/-- PUSHKEY (R103): appends a key byte; FULL when `KEY` holds 255 bytes. -/
def cmdPushkey (imm : Byte) (m : Mpe) : Mpe × Word :=
  gated .config m
    (if m.key.length < keyCap then ({ m with key := m.key ++ [imm] }, ackWord 0) else (m, nakWord .full))

/-- PUSHIV (R104): appends an IV byte; FULL when `IV` holds 255 bytes. -/
def cmdPushiv (imm : Byte) (m : Mpe) : Mpe × Word :=
  gated .config m
    (if m.iv.length < ivCap then ({ m with iv := m.iv ++ [imm] }, ackWord 0) else (m, nakWord .full))

/-- LOCK (R105): seals the configuration and validates nothing. -/
def cmdLock (m : Mpe) : Mpe × Word := gated .config m ({ m with phase := .ready }, ackWord 0)

/-- CLEAR (R106): every piece of state to its reset value. -/
def cmdClear (P : Params) (m : Mpe) : Mpe × Word := gated .idle m (Mpe.reset P, ackWord 0)

/-- The meaning of NOP (R100). -/
def execNop (s : State) : Host.Outcome State Fault Refusal := s.respond (cmdNop s.mpe)

/-- The meaning of SETMODE (R101). -/
def execSetmode (imm : Byte) (s : State) : Host.Outcome State Fault Refusal := s.respond (cmdSetmode imm s.mpe)

/-- The meaning of SETPAD (R102). -/
def execSetpad (imm : Byte) (s : State) : Host.Outcome State Fault Refusal := s.respond (cmdSetpad imm s.mpe)

/-- The meaning of PUSHKEY (R103). -/
def execPushkey (imm : Byte) (s : State) : Host.Outcome State Fault Refusal := s.respond (cmdPushkey imm s.mpe)

/-- The meaning of PUSHIV (R104). -/
def execPushiv (imm : Byte) (s : State) : Host.Outcome State Fault Refusal := s.respond (cmdPushiv imm s.mpe)

/-- The meaning of LOCK (R105). -/
def execLock (s : State) : Host.Outcome State Fault Refusal := s.respond (cmdLock s.mpe)

/-- The meaning of CLEAR (R106). -/
def execClear (s : State) : Host.Outcome State Fault Refusal := s.respond (cmdClear Config.params s.mpe)

end Sys2Proof.Machine
end

