-- ==== Sys2Proof/Machine/Data.lean ====
section
/-! DEFINITION. The data movement and read commands PUSHD, CLRD, POPD, RDSTAT, RDCFG, RDILEN, RDOLEN, RDKLEN, RDBS, RDBLK
(spec 41_data_commands.md R120 to R129). -/

namespace Sys2Proof.Machine

/-- PUSHD (R120): appends an input byte; FULL when `len(IN) >= NMAX`. -/
def cmdPushd (P : Params) (imm : Byte) (m : Mpe) : Mpe × Word :=
  gated .data m
    (if m.inp.length < P.nmax then ({ m with inp := m.inp ++ [imm] }, ackWord 0) else (m, nakWord .full))

/-- CLRD (R121): the data and the flags `DONE`, `ERR` cleared; the configuration, `FB`, `KS` and `DIR` stay. -/
def cmdClrd (m : Mpe) : Mpe × Word :=
  gated .data m ({ clearFlags m with inp := [], out := [], blk := 0, nblk := 0 }, ackWord 0)

/-- POPD (R122): removes and returns `OUT[0]`; EMPTY when there is none. -/
def cmdPopd (m : Mpe) : Mpe × Word :=
  gated .data m
    (match m.out with
    | [] => (m, nakWord .empty)
    | b :: rest => ({ m with out := rest }, ackWord (bytePayload b)))

/-- A read command: accepted in every phase, no state change (R67). -/
def cmdRead (p : BitVec 24) (m : Mpe) : Mpe × Word := gated .always m (m, ackWord p)

/-- RDSTAT (R123). -/
def cmdRdstat (m : Mpe) : Mpe × Word := cmdRead (statusView m) m

/-- RDCFG (R124): `MODE + 256*PAD`, the codes as stored. -/
def cmdRdcfg (m : Mpe) : Mpe × Word := cmdRead (pairPayload m.mode m.pad) m

/-- RDILEN (R125): `len(IN)`. -/
def cmdRdilen (m : Mpe) : Mpe × Word := cmdRead (count24 m.inp.length) m

/-- RDOLEN (R126): `len(OUT)`. -/
def cmdRdolen (m : Mpe) : Mpe × Word := cmdRead (count24 m.out.length) m

/-- RDKLEN (R127): `len(KEY) + 256*len(IV)`. -/
def cmdRdklen (m : Mpe) : Mpe × Word := cmdRead (count24 (m.key.length + 256 * m.iv.length)) m

/-- RDBS (R128): `B`. -/
def cmdRdbs (P : Params) (m : Mpe) : Mpe × Word := cmdRead (count24 P.B) m

/-- RDBLK (R129): `BLK`. -/
def cmdRdblk (m : Mpe) : Mpe × Word := cmdRead m.blk m

/-- The meaning of PUSHD (R120). -/
def execPushd (imm : Byte) (s : State) : Host.Outcome State Fault Refusal :=
  s.respond (cmdPushd Config.params imm s.mpe)

/-- The meaning of CLRD (R121). -/
def execClrd (s : State) : Host.Outcome State Fault Refusal := s.respond (cmdClrd s.mpe)

/-- The meaning of POPD (R122). -/
def execPopd (s : State) : Host.Outcome State Fault Refusal := s.respond (cmdPopd s.mpe)

/-- The meaning of RDSTAT (R123). -/
def execRdstat (s : State) : Host.Outcome State Fault Refusal := s.respond (cmdRdstat s.mpe)

/-- The meaning of RDCFG (R124). -/
def execRdcfg (s : State) : Host.Outcome State Fault Refusal := s.respond (cmdRdcfg s.mpe)

/-- The meaning of RDILEN (R125). -/
def execRdilen (s : State) : Host.Outcome State Fault Refusal := s.respond (cmdRdilen s.mpe)

/-- The meaning of RDOLEN (R126). -/
def execRdolen (s : State) : Host.Outcome State Fault Refusal := s.respond (cmdRdolen s.mpe)

/-- The meaning of RDKLEN (R127). -/
def execRdklen (s : State) : Host.Outcome State Fault Refusal := s.respond (cmdRdklen s.mpe)

/-- The meaning of RDBS (R128). -/
def execRdbs (s : State) : Host.Outcome State Fault Refusal := s.respond (cmdRdbs Config.params s.mpe)

/-- The meaning of RDBLK (R129). -/
def execRdblk (s : State) : Host.Outcome State Fault Refusal := s.respond (cmdRdblk s.mpe)

end Sys2Proof.Machine
end

