-- ==== Sys2Proof/Machine/Dispatch.lean ====
section
/-! DEFINITION. One arm per command (spec 30_encoding.md R82). -/

namespace Sys2Proof.Machine

def exec (i : Instr) (s : State) : Host.Outcome State Fault Refusal :=
  match i with
  | .nop => Sys2Proof.Machine.execNop s
  | .setmode imm => Sys2Proof.Machine.execSetmode imm s
  | .setpad imm => Sys2Proof.Machine.execSetpad imm s
  | .pushkey imm => Sys2Proof.Machine.execPushkey imm s
  | .pushiv imm => Sys2Proof.Machine.execPushiv imm s
  | .lock => Sys2Proof.Machine.execLock s
  | .clear => Sys2Proof.Machine.execClear s
  | .pushd imm => Sys2Proof.Machine.execPushd imm s
  | .clrd => Sys2Proof.Machine.execClrd s
  | .enc => Sys2Proof.Machine.execEnc s
  | .dec => Sys2Proof.Machine.execDec s
  | .popd => Sys2Proof.Machine.execPopd s
  | .rdstat => Sys2Proof.Machine.execRdstat s
  | .rdcfg => Sys2Proof.Machine.execRdcfg s
  | .rdilen => Sys2Proof.Machine.execRdilen s
  | .rdolen => Sys2Proof.Machine.execRdolen s
  | .rdklen => Sys2Proof.Machine.execRdklen s
  | .rdbs => Sys2Proof.Machine.execRdbs s
  | .rdblk => Sys2Proof.Machine.execRdblk s

end Sys2Proof.Machine
end

