-- ==== Sys2Proof/Machine/Present.lean ====
section
/-! DEFINITION. A command word presented to the MPE (spec 00_scope.md R11, 30_encoding.md R83, R84), and the words a list of
commands is presented as. -/

namespace Sys2Proof.Machine

/-- The word decoded, and the command run. A word that is no command is refused in every phase, with nothing written:
ILLEGAL first, then OPERAND (R84). -/
def present (w : Word) (s : State) : Host.Outcome State Fault Refusal :=
  match decode w with
  | .instr i => exec i s
  | .illegal => s.respond (s.mpe, nakWord .illegal)
  | .operand => s.respond (s.mpe, nakWord .operand)

/-- The events by which a host presents a list of commands. -/
def presentAll (l : List Instr) : List Input := l.map fun i => .command (encode i)

end Sys2Proof.Machine
end

