-- ==== Sys2Proof/Machine/Step.lean ====
section
/-! DEFINITION. One step of the machine (spec 00_scope.md R8, R9, R11; 20_memory.md R64; 10_state.md R40). -/

namespace Sys2Proof.Machine

/-- One step: the next event of the list, atomically. When no event is waiting the engine takes its turn, which is the weak
fairness of R270, and nothing happens while it is idle (R40). DESIGN CHOICE, assumption 1. -/
def step (s : State) : Host.Outcome State Fault Refusal :=
  match s.inputs with
  | [] => engineTurn s
  | .command w :: rest => present w { s with inputs := rest }
  | .engineTurn :: rest => engineTurn { s with inputs := rest }
  | .assertReset :: rest => assertReset { s with inputs := rest }

/-- The command word made of the `nbits` low bits of `w` presented as the next event (R11). DESIGN CHOICE, assumption 3. -/
def State.withFetchWord (s : State) (nbits w : Nat) : State :=
  { s with inputs := .command (BitVec.ofNat 32 (w % 2 ^ nbits)) :: s.inputs }

end Sys2Proof.Machine
end

