-- ==== Sys2Proof/Machine/Assembler.lean ====
section
/-! DEFINITION. The pseudo-commands of the spec's assembler (30_encoding.md R91), each by its expansion, and the state
`Configured` (40_config_commands.md R107). None adds behaviour. -/

namespace Sys2Proof.Machine

/-- `KEY b0 .. bk` (R91). -/
def asmKey (bytes : Bytes) : List Instr := bytes.map .pushkey

/-- `IVEC b0 .. bk` (R91). -/
def asmIvec (bytes : Bytes) : List Instr := bytes.map .pushiv

/-- `DATA b0 .. bk` (R91). -/
def asmData (bytes : Bytes) : List Instr := bytes.map .pushd

/-- `CONFIGURE m, p, key, iv` (R91), the document's `configure`. -/
def asmConfigure (mode pad : Byte) (key iv : Bytes) : List Instr :=
  [.setmode mode, .setpad pad] ++ asmKey key ++ asmIvec iv ++ [.lock]

/-- The test `WAIT` makes on an RDSTAT response (R91): `resp[2:0] <= 1`, the engine is idle. -/
def waitOver (resp : Word) : Bool := decide (resp.extractLsb' 0 3 ≤ 1#3)

/-- `WAIT` that took `polls` RDSTAT commands (R91). -/
def asmWait (polls : Nat) : List Instr := List.replicate polls .rdstat

/-- `POPALL` where RDOLEN's payload said `n` (R91). -/
def asmPopall (n : Nat) : List Instr := .rdolen :: List.replicate n .popd

/-- `ENCRYPT data` with `polls` polls and a result of `n` bytes (R91). -/
def asmEncrypt (data : Bytes) (polls n : Nat) : List Instr :=
  asmData data ++ [.enc] ++ asmWait polls ++ asmPopall n

/-- `DECRYPT data` with `polls` polls and a result of `n` bytes (R91). -/
def asmDecrypt (data : Bytes) (polls n : Nat) : List Instr :=
  asmData data ++ [.dec] ++ asmWait polls ++ asmPopall n

/-- `Configured(m, p, k, v)` (R107): sealed, everything else at its reset value. -/
def configured (P : Params) (mode pad : Byte) (key iv : Bytes) : Mpe :=
  { Mpe.reset P with mode := mode, pad := pad, key := key, iv := iv, phase := .ready }

end Sys2Proof.Machine
end

