-- ==== Sys2Proof/Machine/Reference.lean ====
section
/-! DEFINITION. The reference functions (spec 42_transform_commands.md R148, 44_block_modes.md R188, 45_stream_modes.md R210):
what the machine computes, written as pure functions of a configuration and a byte sequence (R15). No command or engine step
uses them; statements compare the machine with them. -/

namespace Sys2Proof.Machine

/-- The blocks `s[j*B .. j*B+B)` of a byte sequence, `0 <= j < ceil(len/B)`, the last one short when it must be (R61, R188,
R210). -/
def blocksOf (B : Nat) (s : Bytes) : List Bytes :=
  (List.range (ceilDiv s.length B)).map fun j => (s.drop (j * B)).take B

/-- CBC encryption of the blocks from the chaining value `c` on (R188). -/
def cbcEncBlocks (P : Params) (k : Bytes) : Bytes → List Bytes → Bytes
  | _, [] => []
  | c, x :: rest => P.enc k (xorBytes c x) ++ cbcEncBlocks P k (P.enc k (xorBytes c x)) rest

/-- CBC decryption of the blocks from the chaining value `c` on (R188). -/
def cbcDecBlocks (P : Params) (k : Bytes) : Bytes → List Bytes → Bytes
  | _, [] => []
  | c, x :: rest => xorBytes (P.dec k x) c ++ cbcDecBlocks P k x rest

/-- A stream mode's output from the register value `r` on (R210): `y_j = xor(s_j, E(k, r_j))`, and `r_(j+1)` is what the mode
makes of `r_j`, the keystream block, the segment and the output. -/
def streamBlocks (P : Params) (k : Bytes) (nextReg : Bytes → Bytes → Bytes → Bytes → Bytes) :
    Bytes → List Bytes → Bytes
  | _, [] => []
  | r, x :: rest =>
    xorBytes x (P.enc k r)
      ++ streamBlocks P k nextReg (nextReg r (P.enc k r) x (xorBytes x (P.enc k r))) rest

/-- `ModeEnc(m, k, v, s)` (R188, R210). -/
def modeEnc (P : Params) (m : Mode) (k v s : Bytes) : Bytes :=
  match m with
  | .cbc => cbcEncBlocks P k v (blocksOf P.B s)
  | .ecb => (blocksOf P.B s).flatMap (P.enc k)
  | .cfb => streamBlocks P k (fun r _ _ y => r.drop y.length ++ y) v (blocksOf P.B s)
  | .ofb => streamBlocks P k (fun _ ks _ _ => ks) v (blocksOf P.B s)
  | .ctr => streamBlocks P k (fun r _ _ _ => incBe r) v (blocksOf P.B s)

/-- `ModeDec(m, k, v, s)` (R188, R210). -/
def modeDec (P : Params) (m : Mode) (k v s : Bytes) : Bytes :=
  match m with
  | .cbc => cbcDecBlocks P k v (blocksOf P.B s)
  | .ecb => (blocksOf P.B s).flatMap (P.dec k)
  | .cfb => streamBlocks P k (fun r _ x _ => r.drop x.length ++ x) v (blocksOf P.B s)
  | .ofb => streamBlocks P k (fun _ ks _ _ => ks) v (blocksOf P.B s)
  | .ctr => streamBlocks P k (fun r _ _ _ => incBe r) v (blocksOf P.B s)

/-- `Encrypt(m, p, k, v, data)` (R148). A validated configuration names a mode and a scheme. -/
def encryptRef (P : Params) (mode pad : Byte) (k v data : Bytes) : Except ErrorKind Bytes :=
  match validateOf P mode pad k v, modeOf mode, schemeOf pad with
  | some e, _, _ => .error e
  | none, some m, some p =>
    if blockMode m then
      if p = .identity ∧ data.length % P.B ≠ 0 then .error .inputNotBlockAligned
      else .ok (modeEnc P m k v (applyPad P.B data p))
    else .ok (modeEnc P m k v data)
  | none, none, _ => .error .unsupportedMode
  | none, some _, none => .error .unsupportedPadding

/-- `Decrypt(m, p, k, v, data)` (R148). -/
def decryptRef (P : Params) (mode pad : Byte) (k v data : Bytes) : Except ErrorKind Bytes :=
  match validateOf P mode pad k v, modeOf mode, schemeOf pad with
  | some e, _, _ => .error e
  | none, some m, some p =>
    if blockMode m then
      if data.length % P.B ≠ 0 then .error .inputNotBlockAligned
      else
        match removePad P.B (modeDec P m k v data) p with
        | none => .error .invalidPadding
        | some r => .ok r
    else .ok (modeDec P m k v data)
  | none, none, _ => .error .unsupportedMode
  | none, some _, none => .error .unsupportedPadding

end Sys2Proof.Machine
end

