-- ==== Sys2Proof/Safety.lean ====
section
/-! DEFINITION. The terms in which claims are stated: the busy phases, the invariant of spec 10_state.md R38, the events that
cannot disturb a transformation (20_memory.md R64), and what the host can observe (10_state.md R37). -/

namespace Sys2Proof.Machine

/-- The engine is busy in PAD, RUN and UNPAD (R36, glossary of 00_scope.md). -/
def busy (p : Phase) : Bool :=
  match p with
  | .build | .ready => false
  | .pad | .run | .unpad => true

/-- `MODE` is a block mode's code, CBC or ECB (R85). -/
abbrev inBlockMode (m : Mpe) : Prop := m.mode = 1 ∨ m.mode = 2

/-- `MODE` is a stream mode's code, CFB, OFB or CTR (R85). -/
abbrev inStreamMode (m : Mpe) : Prop := m.mode = 3 ∨ m.mode = 4 ∨ m.mode = 5

/-- The configuration a transformation in flight runs under (R38 item 4). -/
structure GoodConfig (P : Params) (m : Mpe) : Prop where
  mode_named : inBlockMode m ∨ inStreamMode m
  pad_named : m.pad = 1 ∨ m.pad = 2 ∨ m.pad = 3 ∨ m.pad = 4
  key_ok : P.keyOk m.key = true
  iv_len : m.mode = 2 ∨ m.iv.length = P.B
  pkcs5_block : m.pad ≠ 3 ∨ P.B = 8

/-- The invariant: R38 items 1 to 7, and the facts beside them that make it one that every step keeps (assumption 8). -/
structure Mpe.Inv (P : Params) (m : Mpe) : Prop where
  /-- Item 1. -/
  fb_len : m.fb.length = P.B
  ks_len : m.ks.length = P.B
  key_len : m.key.length ≤ keyCap
  iv_len : m.iv.length ≤ ivCap
  in_len : m.inp.length ≤ P.nmax + P.B
  out_len : m.out.length ≤ P.nmax + P.B
  /-- Item 2; that `PHASE` and `ERR` hold only named values is in their types. -/
  run_count : m.phase = .run → m.blk ≤ m.nblk
  /-- Item 3. -/
  build_clean : m.phase = .build →
    m.inp = [] ∧ m.out = [] ∧ m.done = false ∧ m.err = none ∧ m.dir = .encrypt ∧ m.blk = 0 ∧ m.nblk = 0 ∧
      m.fb = rep P.B 0 ∧ m.ks = rep P.B 0
  /-- Item 4. -/
  busy_clean : busy m.phase = true → m.done = false ∧ m.err = none
  busy_config : busy m.phase = true → GoodConfig P m
  /-- Item 5. -/
  pad_block : m.phase = .pad → m.dir = .encrypt ∧ inBlockMode m
  unpad_block : m.phase = .unpad → m.dir = .decrypt ∧ inBlockMode m ∧ m.inp = []
  /-- Item 6. -/
  run_block : m.phase = .run → inBlockMode m → m.inp.length = (m.nblk.toNat - m.blk.toNat) * P.B
  run_stream : m.phase = .run → inStreamMode m → ceilDiv m.inp.length P.B = m.nblk.toNat - m.blk.toNat
  /-- Item 7. -/
  done_ready : m.done = true → m.phase = .ready ∧ m.err = none
  err_ready : m.err ≠ none → m.phase = .ready ∧ m.done = false
  /-- Beside R38: the host pushed at most `NMAX` bytes (R28, R120). -/
  in_cap : m.phase = .ready ∨ m.phase = .pad → m.inp.length ≤ P.nmax
  /-- Beside R38: `AlignCheck` has passed before PAD (R141, R170). -/
  pad_aligned : m.phase = .pad → m.pad = 1 → m.inp.length % P.B = 0
  /-- Beside R38: `Start` emptied `OUT` and `BLK` (R144). -/
  pad_fresh : m.phase = .pad → m.out = [] ∧ m.blk = 0
  /-- Beside R38: the bytes in flight (R29, R63). -/
  run_total : m.phase = .run → m.inp.length + m.out.length ≤ P.nmax + P.B
  /-- Beside R38: `OUT` holds `BLK` whole blocks in a block mode (R145, R180). -/
  run_out : m.phase = .run → inBlockMode m → m.out.length = m.blk.toNat * P.B
  /-- Beside R38: what UNPAD is given is whole blocks (R167). -/
  unpad_out : m.phase = .unpad → m.out.length % P.B = 0
  /-- Beside R38: no output of a failed transformation exists (R238, R71). -/
  err_no_output : m.err ≠ none → m.out = []

/-- `n` steps of the machine, stopping at the first that does not answer a next state. -/
def runSteps : Nat → State → Host.Outcome State Fault Refusal
  | 0, s => .next s
  | n + 1, s =>
    match step s with
    | .next t => runSteps n t
    | .fault f => .fault f
    | .refused r => .refused r

/-- The invariant of the machine. -/
def State.Inv (s : State) : Prop := s.mpe.Inv Config.params

/-- The command that starts a transformation in a direction (R142, R143). -/
def startCommand : Dir → Instr
  | .encrypt => .enc
  | .decrypt => .dec

/-- The first violation that `Validate` and `AlignCheck` find, as R140, R141 and R239 order the checks. -/
def firstViolation (P : Params) (d : Dir) (m : Mpe) : Option ErrorKind :=
  if ¬(m.mode = 1 ∨ m.mode = 2 ∨ m.mode = 3 ∨ m.mode = 4 ∨ m.mode = 5) then some .unsupportedMode
  else if ¬(m.pad = 1 ∨ m.pad = 2 ∨ m.pad = 3 ∨ m.pad = 4) then some .unsupportedPadding
  else if P.keyOk m.key = false then some .invalidKeyLength
  else if m.mode ≠ 2 ∧ m.iv.length ≠ P.B then some .invalidIVLength
  else if m.pad = 3 ∧ P.B ≠ 8 then some .blockSizeMismatch
  else if (m.mode = 1 ∨ m.mode = 2) ∧ (d = .decrypt ∨ m.pad = 1) ∧ m.inp.length % P.B ≠ 0 then
    some .inputNotBlockAligned
  else none

/-- The operand of a SETMODE (R107). -/
def setmodeOperand : Instr → Option Byte
  | .setmode b => some b
  | _ => none

/-- The operand of a SETPAD (R107). -/
def setpadOperand : Instr → Option Byte
  | .setpad b => some b
  | _ => none

/-- The operand of a PUSHKEY (R107). -/
def pushkeyOperand : Instr → Option Byte
  | .pushkey b => some b
  | _ => none

/-- The operand of a PUSHIV (R107). -/
def pushivOperand : Instr → Option Byte
  | .pushiv b => some b
  | _ => none

/-- NOP and the seven reads, which are accepted in every phase and change no state (R64, R92). -/
def isObserver : Instr → Bool
  | .nop | .rdstat | .rdcfg | .rdilen | .rdolen | .rdklen | .rdbs | .rdblk => true
  | .setmode _ | .setpad _ | .pushkey _ | .pushiv _ | .lock | .clear | .pushd _ | .clrd | .enc | .dec | .popd => false

/-- An event that may come between the steps of a transformation and leaves its result alone (R64, R149): a turn of the
engine, or NOP or a read. -/
def Input.undisturbing : Input → Bool
  | .engineTurn => true
  | .assertReset => false
  | .command w =>
    match decode w with
    | .instr i => isObserver i
    | .illegal => true
    | .operand => true

/-- What the host can observe of the MPE (R37): `PHASE`, `DONE`, `DIR`, `ERR`, `MODE`, `PAD`, the four lengths, `BLK`, and
the bytes of `OUT` while `PHASE` is READY. -/
structure View where
  phase : Phase
  done : Bool
  dir : Dir
  err : Option ErrorKind
  mode : Byte
  pad : Byte
  keyLen : Nat
  ivLen : Nat
  inLen : Nat
  outLen : Nat
  blk : BitVec 24
  readyOut : Bytes
  deriving DecidableEq, Repr

/-- The observable part of an MPE (R37). -/
def Mpe.view (m : Mpe) : View where
  phase := m.phase
  done := m.done
  dir := m.dir
  err := m.err
  mode := m.mode
  pad := m.pad
  keyLen := m.key.length
  ivLen := m.iv.length
  inLen := m.inp.length
  outLen := m.out.length
  blk := m.blk
  readyOut := if m.phase = .ready then m.out else []

end Sys2Proof.Machine
end

