-- ==== Sys2Proof/Certificates/Slice0/Obligations.lean ====
section
/-! DEFINITION. The statements for the provers. Each docstring names the rule of spec/ it formalises, or says that it is
derived. -/

open Sys2Proof Sys2Proof.Machine

/-! ### Encoding -/

/-- Derived from R80 and R82: the encoder drops nothing the decoder reads. -/
def Obligations.DecodeOfEncodeIsTheInstruction : Prop :=
  ∀ i : Instr, decode (encode i) = .instr i

/-- R82: `match` and `mask` select the fully legal word of each row, the opcode alone selects the command, an unassigned
opcode and a non-zero must-be-zero bit are told apart. -/
def Obligations.DecodedWordsAreTheTableRows : Prop :=
  ∀ w : Word,
    ((decode w = .instr .nop ↔ w &&& 0xFFFFFFFF#32 = 0x00000000#32) ∧
      (decode w = .instr .lock ↔ w &&& 0xFFFFFFFF#32 = 0x05000000#32) ∧
      (decode w = .instr .clear ↔ w &&& 0xFFFFFFFF#32 = 0x06000000#32) ∧
      (decode w = .instr .clrd ↔ w &&& 0xFFFFFFFF#32 = 0x09000000#32) ∧
      (decode w = .instr .enc ↔ w &&& 0xFFFFFFFF#32 = 0x0A000000#32) ∧
      (decode w = .instr .dec ↔ w &&& 0xFFFFFFFF#32 = 0x0B000000#32) ∧
      (decode w = .instr .popd ↔ w &&& 0xFFFFFFFF#32 = 0x0C000000#32) ∧
      (decode w = .instr .rdstat ↔ w &&& 0xFFFFFFFF#32 = 0x10000000#32) ∧
      (decode w = .instr .rdcfg ↔ w &&& 0xFFFFFFFF#32 = 0x11000000#32) ∧
      (decode w = .instr .rdilen ↔ w &&& 0xFFFFFFFF#32 = 0x12000000#32) ∧
      (decode w = .instr .rdolen ↔ w &&& 0xFFFFFFFF#32 = 0x13000000#32) ∧
      (decode w = .instr .rdklen ↔ w &&& 0xFFFFFFFF#32 = 0x14000000#32) ∧
      (decode w = .instr .rdbs ↔ w &&& 0xFFFFFFFF#32 = 0x15000000#32) ∧
      (decode w = .instr .rdblk ↔ w &&& 0xFFFFFFFF#32 = 0x16000000#32)) ∧
    (∀ b : Byte,
      (decode w = .instr (.setmode b) ↔ w &&& 0xFFFFFF00#32 = 0x01000000#32 ∧ b = w.extractLsb' 0 8) ∧
      (decode w = .instr (.setpad b) ↔ w &&& 0xFFFFFF00#32 = 0x02000000#32 ∧ b = w.extractLsb' 0 8) ∧
      (decode w = .instr (.pushkey b) ↔ w &&& 0xFFFFFF00#32 = 0x03000000#32 ∧ b = w.extractLsb' 0 8) ∧
      (decode w = .instr (.pushiv b) ↔ w &&& 0xFFFFFF00#32 = 0x04000000#32 ∧ b = w.extractLsb' 0 8) ∧
      (decode w = .instr (.pushd b) ↔ w &&& 0xFFFFFF00#32 = 0x08000000#32 ∧ b = w.extractLsb' 0 8)) ∧
    (decode w = .illegal ↔
      w.extractLsb' 24 8 = 0x07#8 ∨ (0x0D#8 ≤ w.extractLsb' 24 8 ∧ w.extractLsb' 24 8 ≤ 0x0F#8) ∨
        0x17#8 ≤ w.extractLsb' 24 8) ∧
    (decode w = .operand ↔
      (w.extractLsb' 24 8 ∈ [0x00#8, 0x05#8, 0x06#8, 0x09#8, 0x0A#8, 0x0B#8, 0x0C#8, 0x10#8, 0x11#8, 0x12#8, 0x13#8,
          0x14#8, 0x15#8, 0x16#8] ∧ w.extractLsb' 0 24 ≠ 0#24) ∨
      (w.extractLsb' 24 8 ∈ [0x01#8, 0x02#8, 0x03#8, 0x04#8, 0x08#8] ∧ w.extractLsb' 8 16 ≠ 0#16))

/-- Derived from R82: each command has one word. -/
def Obligations.EveryDecodedWordIsTheEncodingOfItsCommand : Prop :=
  ∀ (w : Word) (i : Instr), decode w = .instr i → encode i = w

/-- Derived from R82 and the examples of R100 to R129: a few words, bit by bit. -/
def Obligations.WrittenWordsDecodeToTheirCommands : Prop :=
  decode 0b00000000000000000000000000000000#32 = .instr .nop ∧
  decode 0b00000001000000000000000000000001#32 = .instr (.setmode 1) ∧
  decode 0b00000010000000000000000000000100#32 = .instr (.setpad 4) ∧
  decode 0b00000011000000000000000000110000#32 = .instr (.pushkey 0x30) ∧
  decode 0b00001000000000000000000001101000#32 = .instr (.pushd 0x68) ∧
  decode 0b00001010000000000000000000000000#32 = .instr .enc ∧
  decode 0b00001100000000000000000000000000#32 = .instr .popd ∧
  decode 0b00010110000000000000000000000000#32 = .instr .rdblk ∧
  decode 0b00000111000000000000000000000000#32 = .illegal ∧
  decode 0b00001000000000000000000101000001#32 = .operand

/-! ### The step -/

/-- Derived from R11 and R82: a step runs the command its word decodes to, on the state without that event. -/
def Obligations.StepRunsThePresentedCommand : Prop :=
  ∀ (s : State) (w : Word) (rest : List Input) (i : Instr),
    s.inputs = .command w :: rest → decode w = .instr i → step s = exec i { s with inputs := rest }

/-- Derived from R83, R84, R88: a word that is no command is refused with its reason in every phase and changes nothing
else. -/
def Obligations.WordsThatAreNoCommandAreRefused : Prop :=
  ∀ (s : State) (w : Word) (rest : List Input), s.inputs = .command w :: rest →
    ((w.extractLsb' 24 8 = 0x07#8 ∨ (0x0D#8 ≤ w.extractLsb' 24 8 ∧ w.extractLsb' 24 8 ≤ 0x0F#8) ∨
        0x17#8 ≤ w.extractLsb' 24 8) →
      step s = .next { s with inputs := rest, resps := s.resps ++ [0x81000000#32] }) ∧
    (w.extractLsb' 24 8 ∈ [0x00#8, 0x05#8, 0x06#8, 0x09#8, 0x0A#8, 0x0B#8, 0x0C#8, 0x10#8, 0x11#8, 0x12#8, 0x13#8,
        0x14#8, 0x15#8, 0x16#8] → w.extractLsb' 0 24 ≠ 0#24 →
      step s = .next { s with inputs := rest, resps := s.resps ++ [0x82000000#32] }) ∧
    (w.extractLsb' 24 8 ∈ [0x01#8, 0x02#8, 0x03#8, 0x04#8, 0x08#8] → w.extractLsb' 8 16 ≠ 0#16 →
      step s = .next { s with inputs := rest, resps := s.resps ++ [0x82000000#32] })

/-- Derived from R8, R40, R270: the engine has its turn when the host gives it one and when the host is silent; idle, it
does nothing; a step writes the MPE and appends its adapter calls to the ghost trace. That a silent host lets the engine
move is the model's choice (assumption 1). -/
def Obligations.EngineTakesItsTurn : Prop :=
  ∀ (s : State) (rest : List Input),
    (s.inputs = .engineTurn :: rest ∨ (s.inputs = [] ∧ rest = [])) →
      (engineStep Config.params s.mpe = .idle → step s = .next { s with inputs := rest }) ∧
      (∀ (m : Mpe) (calls : List AdapterCall), engineStep Config.params s.mpe = .stepped m calls →
        step s = .next { s with inputs := rest, mpe := m, atrace := s.atrace ++ calls })

/-- Derived from R260: reset asserted, in any phase. The lists of events, responses and adapter calls are the model's own
and stay (assumption 13). -/
def Obligations.ResetPutsEveryPieceAtItsResetValue : Prop :=
  ∀ (s : State) (rest : List Input), s.inputs = .assertReset :: rest →
    step s = .next
      { s with
        inputs := rest
        mpe :=
          { fb := List.replicate Config.params.B 0#8, ks := List.replicate Config.params.B 0#8, mode := 0#8, pad := 0#8,
            key := [], iv := [], inp := [], out := [], dir := .encrypt, done := false, err := none, blk := 0#24,
            nblk := 0#24, phase := .build } }

/-- R41: the reset value of every piece of state. -/
def Obligations.ResetStateHoldsTheResetValues : Prop :=
  State.reset.mpe =
    { fb := List.replicate Config.params.B 0#8, ks := List.replicate Config.params.B 0#8, mode := 0#8, pad := 0#8,
      key := [], iv := [], inp := [], out := [], dir := .encrypt, done := false, err := none, blk := 0#24,
      nblk := 0#24, phase := .build } ∧
  step State.reset = .next State.reset

/-! ### Refusals -/

/-- R92: which command is accepted in which phase; a refused one changes nothing but adds its response, an accepted one
answers with bit 31 clear unless FULL or EMPTY applies. -/
def Obligations.CommandsAreAcceptedByPhase : Prop :=
  ∀ (s : State) (b : Byte),
    (∀ i ∈ [Instr.setmode b, .setpad b, .pushkey b, .pushiv b, .lock],
      (s.mpe.phase = .ready → exec i s = .next { s with resps := s.resps ++ [0x84000000#32] }) ∧
      (busy s.mpe.phase = true → exec i s = .next { s with resps := s.resps ++ [0x83000000#32] })) ∧
    (busy s.mpe.phase = true → exec .clear s = .next { s with resps := s.resps ++ [0x83000000#32] }) ∧
    (∀ i ∈ [Instr.pushd b, .clrd, .enc, .dec, .popd],
      (s.mpe.phase = .build → exec i s = .next { s with resps := s.resps ++ [0x85000000#32] }) ∧
      (busy s.mpe.phase = true → exec i s = .next { s with resps := s.resps ++ [0x83000000#32] })) ∧
    (∀ i : Instr,
      (i ∈ [Instr.setmode b, .setpad b, .pushkey b, .pushiv b, .lock] ∧ s.mpe.phase = .build ∨
        i = .clear ∧ (s.mpe.phase = .build ∨ s.mpe.phase = .ready) ∨
        i ∈ [Instr.pushd b, .clrd, .enc, .dec, .popd] ∧ s.mpe.phase = .ready ∨
        i ∈ [Instr.nop, .rdstat, .rdcfg, .rdilen, .rdolen, .rdklen, .rdbs, .rdblk]) →
      ∃ (t : State) (r : Word), exec i s = .next t ∧ t.resps = s.resps ++ [r] ∧
        (r.getLsbD 31 = false ∨ r = 0x86000000#32 ∧ i ∈ [Instr.pushkey b, .pushiv b, .pushd b] ∨
          r = 0x87000000#32 ∧ i = .popd))

/-- Derived from R83 and R11: every presented word is answered by one response; a response with bit 31 set carries one of
the seven reasons and nothing else in it, and then nothing was written and no adapter function was called. -/
def Obligations.RefusedCommandsWriteNothing : Prop :=
  ∀ (s : State) (w : Word) (rest : List Input), s.inputs = .command w :: rest →
    ∃ (t : State) (r : Word), step s = .next t ∧ t.inputs = rest ∧ t.resps = s.resps ++ [r] ∧ t.atrace = s.atrace ∧
      (r.getLsbD 31 = true →
        t.mpe = s.mpe ∧ ∃ n : Nat, 1 ≤ n ∧ n ≤ 7 ∧ r = BitVec.ofNat 32 (0x80000000 + n * 2 ^ 24)) ∧
      (r.getLsbD 31 = false → r.toNat < 2 ^ 24)

/-! ### Configuration commands -/

/-- Derived from R100 (Effect): NOP, in every phase. -/
def Obligations.NopHasNoEffect : Prop :=
  ∀ s : State, exec .nop s = .next { s with resps := s.resps ++ [0#32] }

/-- Derived from R101 and R102 (Effect): in BUILD any code is stored, and nothing else changes. -/
def Obligations.SetmodeAndSetpadStoreTheCode : Prop :=
  ∀ (s : State) (b : Byte), s.mpe.phase = .build →
    exec (.setmode b) s = .next { s with mpe := { s.mpe with mode := b }, resps := s.resps ++ [0#32] } ∧
    exec (.setpad b) s = .next { s with mpe := { s.mpe with pad := b }, resps := s.resps ++ [0#32] }

/-- Derived from R103 and R104 (Effect, and Refused when FULL): in BUILD the byte goes to the end of the buffer while that
holds fewer than 255 bytes. -/
def Obligations.PushkeyAndPushivAppendTheByte : Prop :=
  ∀ (s : State) (b : Byte), s.mpe.phase = .build →
    (s.mpe.key.length < 255 →
      exec (.pushkey b) s = .next { s with mpe := { s.mpe with key := s.mpe.key ++ [b] }, resps := s.resps ++ [0#32] }) ∧
    (255 ≤ s.mpe.key.length → exec (.pushkey b) s = .next { s with resps := s.resps ++ [0x86000000#32] }) ∧
    (s.mpe.iv.length < 255 →
      exec (.pushiv b) s = .next { s with mpe := { s.mpe with iv := s.mpe.iv ++ [b] }, resps := s.resps ++ [0#32] }) ∧
    (255 ≤ s.mpe.iv.length → exec (.pushiv b) s = .next { s with resps := s.resps ++ [0x86000000#32] })

/-- Derived from R105 (Effect): LOCK seals and validates nothing. -/
def Obligations.LockSealsTheConfiguration : Prop :=
  ∀ s : State, s.mpe.phase = .build →
    exec .lock s = .next { s with mpe := { s.mpe with phase := .ready }, resps := s.resps ++ [0#32] }

/-- Derived from R261: the state after an accepted CLEAR is the state after reset, field for field; CLEAR is refused while
the engine is busy, reset is not. That both leave the lists of events, responses and adapter calls, which are the model's
own, is the model's choice (assumption 13). -/
def Obligations.ClearReachesTheResetState : Prop :=
  ∀ s : State,
    ((s.mpe.phase = .build ∨ s.mpe.phase = .ready) →
      exec .clear s = .next { s with mpe := State.reset.mpe, resps := s.resps ++ [0#32] }) ∧
    (busy s.mpe.phase = true → exec .clear s = .next { s with resps := s.resps ++ [0x83000000#32] }) ∧
    (∀ rest : List Input, s.inputs = .assertReset :: rest →
      step s = .next { s with inputs := rest, mpe := State.reset.mpe })

/-- R107: any interleaving of SETMODE, SETPAD, PUSHKEY and PUSHIV from the reset state, ended by LOCK, reaches the one state
that holds the last mode code, the last padding code, the key bytes and the IV bytes in order. -/
def Obligations.ConfigurationCommandsReachConfigured : Prop :=
  ∀ (l : List Instr) (resps : List Word) (calls : List AdapterCall) (m p : Byte) (k v : Bytes),
    (∀ i ∈ l, ∃ b : Byte, i = .setmode b ∨ i = .setpad b ∨ i = .pushkey b ∨ i = .pushiv b) →
    (l.filterMap setmodeOperand).getLast? = some m →
    (l.filterMap setpadOperand).getLast? = some p →
    (l.filterMap pushkeyOperand) = k →
    (l.filterMap pushivOperand) = v →
    k.length ≤ 255 → v.length ≤ 255 →
    runSteps (l.length + 1)
        { mpe := State.reset.mpe, inputs := presentAll (l ++ [.lock]), resps := resps, atrace := calls } =
      .next
        { mpe := { State.reset.mpe with mode := m, pad := p, key := k, iv := v, phase := .ready }, inputs := [],
          resps := resps ++ List.replicate (l.length + 1) 0#32, atrace := calls }

/-- R108: outside BUILD no command and no engine step writes `MODE`, `PAD`, `KEY` or `IV`, except CLEAR and reset. -/
def Obligations.SealedConfigurationIsImmutable : Prop :=
  ∀ s t : State, step s = .next t → s.mpe.phase ≠ .build →
    s.inputs.head? ≠ some .assertReset → s.inputs.head? ≠ some (.command 0x06000000#32) →
    t.mpe.mode = s.mpe.mode ∧ t.mpe.pad = s.mpe.pad ∧ t.mpe.key = s.mpe.key ∧ t.mpe.iv = s.mpe.iv ∧
      t.mpe.phase ≠ .build

/-! ### Data and read commands -/

/-- Derived from R120 (Effect, and Refused when FULL): in READY the byte goes to the end of `IN` while that holds fewer than
`NMAX` bytes, and is refused FULL otherwise. -/
def Obligations.PushdAppendsTheByteToIn : Prop :=
  ∀ (s : State) (b : Byte), s.mpe.phase = .ready →
    exec (.pushd b) s = .next
      (if s.mpe.inp.length < Config.params.nmax then
        { s with mpe := { s.mpe with inp := s.mpe.inp ++ [b] }, resps := s.resps ++ [0#32] }
      else { s with resps := s.resps ++ [0x86000000#32] })

/-- Derived from R121 (Effect): in READY the data and the flags `DONE` and `ERR` are cleared; `DIR`, `FB`, `KS` and the
configuration stay. -/
def Obligations.ClrdClearsTheData : Prop :=
  ∀ s : State, s.mpe.phase = .ready →
    exec .clrd s = .next
      { s with
        mpe := { s.mpe with inp := [], out := [], done := false, err := none, blk := 0#24, nblk := 0#24 }
        resps := s.resps ++ [0#32] }

/-- Derived from R122 (Effect, and Refused when EMPTY): in READY POPD returns and removes `OUT[0]`. -/
def Obligations.PopdReturnsAndRemovesTheFirstByte : Prop :=
  ∀ s : State, s.mpe.phase = .ready →
    (∀ (b : Byte) (rest : Bytes), s.mpe.out = b :: rest →
      exec .popd s = .next { s with mpe := { s.mpe with out := rest }, resps := s.resps ++ [BitVec.ofNat 32 b.toNat] }) ∧
    (s.mpe.out = [] → exec .popd s = .next { s with resps := s.resps ++ [0x87000000#32] })

/-- Derived from R122 (Corner cases): `len(OUT)` successive POPD commands return the whole result, first byte first. -/
def Obligations.PoppingEverythingReturnsTheWholeResult : Prop :=
  ∀ (s : State) (rest : List Input), s.mpe.phase = .ready →
    s.inputs = presentAll (List.replicate s.mpe.out.length .popd) ++ rest →
    runSteps s.mpe.out.length s =
      .next
        { s with
          mpe := { s.mpe with out := [] }
          inputs := rest
          resps := s.resps ++ s.mpe.out.map fun b => BitVec.ofNat 32 b.toNat }

/-- R35, by RDSTAT: bits 2:0 `PHASE`, bit 3 `DONE`, bit 4 `DIR`, bits 7:5 zero, bits 15:8 `ERR`, bits 23:16 zero; in every
phase, and no state changes. -/
def Obligations.RdstatReturnsTheStatusWord : Prop :=
  ∀ s : State, ∃ r : Word, exec .rdstat s = .next { s with resps := s.resps ++ [r] } ∧
    r.toNat =
      (match s.mpe.phase with | .build => 0 | .ready => 1 | .pad => 2 | .run => 3 | .unpad => 4) +
      8 * (if s.mpe.done then 1 else 0) + 16 * (match s.mpe.dir with | .encrypt => 0 | .decrypt => 1) +
      256 * (match s.mpe.err with
        | none => 0
        | some .unsupportedMode => 1
        | some .unsupportedPadding => 2
        | some .invalidKeyLength => 3
        | some .invalidIVLength => 4
        | some .blockSizeMismatch => 5
        | some .inputNotBlockAligned => 6
        | some .invalidPadding => 7)

/-- Derived from R124 and R127 (Effect): the codes as stored, and the two lengths, in every phase, with no state change. -/
def Obligations.RdcfgAndRdklenReturnTheConfiguration : Prop :=
  ∀ s : State,
    (∃ r : Word, exec .rdcfg s = .next { s with resps := s.resps ++ [r] } ∧
      r.toNat = s.mpe.mode.toNat + 256 * s.mpe.pad.toNat) ∧
    (∃ r : Word, exec .rdklen s = .next { s with resps := s.resps ++ [r] } ∧
      (s.mpe.key.length ≤ 255 → s.mpe.iv.length ≤ 255 → r.toNat = s.mpe.key.length + 256 * s.mpe.iv.length))

/-- Derived from R125, R126, R128, R129 (Effect): the lengths, `B` and `BLK`, in every phase, with no state change. The
invariant bounds the lengths; without it they are returned modulo 2^24 (assumption 9). -/
def Obligations.RdilenRdolenRdbsRdblkReturnTheCounts : Prop :=
  ∀ s : State,
    (∃ r : Word, exec .rdilen s = .next { s with resps := s.resps ++ [r] } ∧ (s.Inv → r.toNat = s.mpe.inp.length)) ∧
    (∃ r : Word, exec .rdolen s = .next { s with resps := s.resps ++ [r] } ∧ (s.Inv → r.toNat = s.mpe.out.length)) ∧
    (∃ r : Word, exec .rdbs s = .next { s with resps := s.resps ++ [r] } ∧ r.toNat = Config.params.B) ∧
    (∃ r : Word, exec .rdblk s = .next { s with resps := s.resps ++ [r] } ∧ r.toNat = s.mpe.blk.toNat)

/-- Derived from R37 and R67: what the host sees does not depend on the bytes of `KEY`, `IV`, `IN`, `FB`, `KS`, nor on
`NBLK`. Two machines in states of the invariant that look alike answer every command but ENC and DEC alike and look alike
afterwards. -/
def Obligations.HiddenBytesDoNotShow : Prop :=
  ∀ (s s' : State) (i : Instr), s.Inv → s'.Inv → s.mpe.view = s'.mpe.view → i ≠ .enc → i ≠ .dec →
    ∃ (t t' : State) (r : Word), exec i s = .next t ∧ exec i s' = .next t' ∧
      t.resps = s.resps ++ [r] ∧ t'.resps = s'.resps ++ [r] ∧ t.mpe.view = t'.mpe.view

/-! ### ENC and DEC -/

/-- R140, R141, R144 (`Start(d)`, the effect of ENC and DEC): in READY the first violation is entered as an error and
returned, or the transformation is started, in PAD when a block mode encrypts and in RUN with `NBLK = ceil(len(IN) / B)`
otherwise; everything not named is unchanged. -/
def Obligations.EncAndDecStartOrReportTheFirstViolation : Prop :=
  ∀ (s : State) (d : Dir), s.mpe.phase = .ready →
    exec (startCommand d) s =
      match firstViolation Config.params d s.mpe with
      | some e =>
        .next
          { s with
            mpe :=
              { s.mpe with
                dir := d, done := false, err := some e, inp := [], out := [], blk := 0#24, nblk := 0#24,
                fb := List.replicate Config.params.B 0#8, ks := List.replicate Config.params.B 0#8, phase := .ready }
            resps := s.resps ++ [BitVec.ofNat 32 (errorCode e).toNat] }
      | none =>
        .next
          { s with
            mpe :=
              { s.mpe with
                dir := d, done := false, err := none, out := [], blk := 0#24,
                ks := List.replicate Config.params.B 0#8,
                fb := if s.mpe.mode = 2 then List.replicate Config.params.B 0#8 else s.mpe.iv,
                nblk :=
                  if d = .encrypt ∧ inBlockMode s.mpe then 0#24
                  else BitVec.ofNat 24 ((s.mpe.inp.length + Config.params.B - 1) / Config.params.B),
                phase := if d = .encrypt ∧ inBlockMode s.mpe then .pad else .run }
            resps := s.resps ++ [0#32] }

/-! ### Engine steps -/

/-- Derived from R40: an engine step is enabled exactly when `PHASE` is PAD, RUN or UNPAD, and in a state of the invariant
some rule then gives it. -/
def Obligations.EngineIsEnabledExactlyWhenBusy : Prop :=
  ∀ (P : Params) (m : Mpe),
    (engineStep P m = .idle ↔ m.phase = .build ∨ m.phase = .ready) ∧
    (P.Valid → m.Inv P → busy m.phase = true →
      ∃ (m' : Mpe) (calls : List AdapterCall), engineStep P m = .stepped m' calls)

/-- R170: the PAD step adds the padding of each scheme, exactly `len(IN') / B` blocks are to be done, RUN is next, nothing
else is written, and the padded input fits. -/
def Obligations.PadStepAppliesThePadding : Prop :=
  ∀ (P : Params) (m : Mpe) (padded : Bytes), P.Valid → m.Inv P → m.phase = .pad →
    (m.pad = 1 → padded = m.inp) →
    (m.pad = 2 → padded = m.inp ++ List.replicate (P.B - m.inp.length % P.B) 0#8) →
    (m.pad = 3 ∨ m.pad = 4 →
      padded = m.inp ++ List.replicate (P.B - m.inp.length % P.B) (BitVec.ofNat 8 (P.B - m.inp.length % P.B))) →
    engineStep P m =
        .stepped { m with inp := padded, nblk := BitVec.ofNat 24 (padded.length / P.B), phase := .run } [] ∧
      padded.length % P.B = 0 ∧ padded.length ≤ P.nmax + P.B

/-- R171: the UNPAD step, with the removers of R165 to R168: the whole of `OUT`, or `OUT` without its trailing zero bytes,
or `OUT` without as many bytes as its last byte says; a last byte that is 0, greater than the block size of the scheme (8
for PKCS5, `B` for PKCS7), greater than `len(OUT)` or missing is entered as `InvalidPadding`. -/
def Obligations.UnpadStepRemovesThePadding : Prop :=
  ∀ (P : Params) (m : Mpe), m.phase = .unpad →
    (m.pad = 1 → engineStep P m = .stepped { m with done := true, phase := .ready } []) ∧
    (∀ (r : Bytes) (n : Nat), m.pad = 2 → m.out = r ++ List.replicate n 0#8 → r.getLast? ≠ some 0#8 →
      engineStep P m = .stepped { m with out := r, done := true, phase := .ready } []) ∧
    (∀ bs : Nat, m.pad = 3 ∧ bs = 8 ∨ m.pad = 4 ∧ bs = P.B →
      (∀ v : Byte, m.out.getLast? = some v → 1 ≤ v.toNat → v.toNat ≤ bs → v.toNat ≤ m.out.length →
        engineStep P m =
          .stepped { m with out := m.out.take (m.out.length - v.toNat), done := true, phase := .ready } []) ∧
      ((m.out = [] ∨ ∃ v : Byte, m.out.getLast? = some v ∧ (v = 0 ∨ bs < v.toNat ∨ m.out.length < v.toNat)) →
        engineStep P m =
          .stepped
            { m with
              err := some .invalidPadding, done := false, inp := [], out := [], fb := List.replicate P.B 0#8,
              ks := List.replicate P.B 0#8, phase := .ready } []))

/-- Derived from R145: the end-of-RUN step writes `PHASE`, and `DONE` where the transformation is complete, and nothing
else. -/
def Obligations.EndOfRunGoesToUnpadOrCompletes : Prop :=
  ∀ (P : Params) (m : Mpe), m.phase = .run → ¬(m.blk < m.nblk) →
    (m.dir = .decrypt ∧ inBlockMode m → engineStep P m = .stepped { m with phase := .unpad } []) ∧
    (¬(m.dir = .decrypt ∧ inBlockMode m) → engineStep P m = .stepped { m with done := true, phase := .ready } [])

/-- R181 and R182: the CBC block steps, with the one adapter call each makes (R183). -/
def Obligations.CbcStepsChainTheCiphertext : Prop :=
  ∀ (P : Params) (m : Mpe) (x : Bytes), m.phase = .run → m.blk < m.nblk → m.mode = 1 → m.fb.length = P.B →
    P.B ≤ m.inp.length → x = m.inp.take P.B →
    (m.dir = .encrypt →
      engineStep P m =
        .stepped
          { m with
            inp := m.inp.drop P.B, out := m.out ++ P.enc m.key (xorBytes m.fb x),
            fb := P.enc m.key (xorBytes m.fb x), blk := m.blk + 1 }
          [⟨.E, xorBytes m.fb x⟩]) ∧
    (m.dir = .decrypt →
      engineStep P m =
        .stepped
          { m with
            inp := m.inp.drop P.B, out := m.out ++ xorBytes (P.dec m.key x) m.fb, fb := x, blk := m.blk + 1 }
          [⟨.D, x⟩])

/-- R184 and R185: the ECB block steps; `FB` is neither read nor written. -/
def Obligations.EcbStepsTransformEachBlockAlone : Prop :=
  ∀ (P : Params) (m : Mpe) (x : Bytes), m.phase = .run → m.blk < m.nblk → m.mode = 2 → m.fb.length = P.B →
    P.B ≤ m.inp.length → x = m.inp.take P.B →
    (m.dir = .encrypt →
      engineStep P m =
        .stepped { m with inp := m.inp.drop P.B, out := m.out ++ P.enc m.key x, blk := m.blk + 1 } [⟨.E, x⟩]) ∧
    (m.dir = .decrypt →
      engineStep P m =
        .stepped { m with inp := m.inp.drop P.B, out := m.out ++ P.dec m.key x, blk := m.blk + 1 } [⟨.D, x⟩])

/-- R201 and R202 with R200: the CFB block steps; the register takes the ciphertext in both directions, the step's output
when encrypting, its input when decrypting; a partial segment shifts it by its own length. -/
def Obligations.CfbStepsFeedTheCiphertextBack : Prop :=
  ∀ (P : Params) (m : Mpe) (n : Nat) (x k y : Bytes), m.phase = .run → m.blk < m.nblk → m.mode = 3 →
    m.fb.length = P.B → n = min P.B m.inp.length → x = m.inp.take n → k = P.enc m.key m.fb → y = xorBytes x k →
    (m.dir = .encrypt →
      engineStep P m =
        .stepped
          { m with inp := m.inp.drop n, out := m.out ++ y, ks := k, fb := m.fb.drop n ++ y, blk := m.blk + 1 }
          [⟨.E, m.fb⟩]) ∧
    (m.dir = .decrypt →
      engineStep P m =
        .stepped
          { m with inp := m.inp.drop n, out := m.out ++ y, ks := k, fb := m.fb.drop n ++ x, blk := m.blk + 1 }
          [⟨.E, m.fb⟩])

/-- Derived from R204 and R205 (Effect) with R200: the OFB and CTR block steps, the same in both directions; OFB's register
takes the whole keystream block, CTR's is incremented after the keystream block was made from it. -/
def Obligations.OfbAndCtrStepsAdvanceTheRegister : Prop :=
  ∀ (P : Params) (m : Mpe) (n : Nat) (x k : Bytes), m.phase = .run → m.blk < m.nblk → m.fb.length = P.B →
    n = min P.B m.inp.length → x = m.inp.take n → k = P.enc m.key m.fb →
    (m.mode = 4 →
      engineStep P m =
        .stepped
          { m with inp := m.inp.drop n, out := m.out ++ xorBytes x k, ks := k, fb := k, blk := m.blk + 1 }
          [⟨.E, m.fb⟩]) ∧
    (m.mode = 5 →
      engineStep P m =
        .stepped
          { m with inp := m.inp.drop n, out := m.out ++ xorBytes x k, ks := k, fb := incBe m.fb, blk := m.blk + 1 }
          [⟨.E, m.fb⟩])

/-- R206: the carry loop is the increment by one of the big-endian number, modulo `256^B`. -/
def Obligations.IncrementIsBigEndianAddOne : Prop :=
  ∀ c : Bytes, (incBe c).length = c.length ∧
    (incBe c).foldl (fun n b => 256 * n + b.toNat) 0 =
      (c.foldl (fun n b => 256 * n + b.toNat) 0 + 1) % 256 ^ c.length

/-! ### Padding -/

/-- R161: the count is between 1 and the block size, aligns the length, and is a whole block on an aligned length. -/
def Obligations.PadLenIsAtLeastOneAndAligns : Prop :=
  ∀ len bs : Nat, 1 ≤ bs →
    padLen len bs = bs - len % bs ∧ 1 ≤ padLen len bs ∧ padLen len bs ≤ bs ∧ (len + padLen len bs) % bs = 0 ∧
      (len % bs = 0 → padLen len bs = bs)

/-- R172: alignment, inverse, the documented loss of Zero padding, and that removal never returns its input unchanged. -/
def Obligations.PaddingLaws : Prop :=
  ∀ (bs : Nat) (data : Bytes), 1 ≤ bs → bs ≤ 255 →
    (∀ p : PadScheme, p ≠ .identity → (p = .pkcs5 → bs = 8) →
      (applyPad bs data p).length % bs = 0 ∧ (applyPad bs data p).length = data.length + padLen data.length bs ∧
        data.length < (applyPad bs data p).length) ∧
    (∀ p : PadScheme, p ≠ .zero → (p = .pkcs5 → bs = 8) → removePad bs (applyPad bs data p) p = some data) ∧
    removePad bs (applyPad bs data .zero) .zero = some (removeZero data) ∧
    (removeZero data = data ↔ data = [] ∨ ∃ b : Byte, data.getLast? = some b ∧ b ≠ 0) ∧
    (∀ p : PadScheme, (p = .pkcs5 ∨ p = .pkcs7) → (p = .pkcs5 → bs = 8) → ∀ r : Bytes,
      removePad bs data p = some r → r.length < data.length)

/-- R165: Zero removal strips every trailing zero byte and nothing else, down to the empty sequence for an all-zero buffer.
-/
def Obligations.RemoveZeroStripsExactlyTheTrailingZeros : Prop :=
  ∀ data : Bytes,
    (∃ n : Nat, data = removeZero data ++ List.replicate n 0#8) ∧ (removeZero data).getLast? ≠ some 0#8 ∧
      ∀ k : Nat, removeZero (List.replicate k 0#8) = []

/-- R167: PKCS7 removal reads the last byte only; empty data, 0, more than the block size and more than the length are
invalid. -/
def Obligations.RemovePkcs7ReadsTheLastByte : Prop :=
  ∀ (data : Bytes) (bs : Nat),
    (data = [] → removePkcs7 data bs = none) ∧
    (∀ v : Byte, data.getLast? = some v →
      (v.toNat = 0 ∨ bs < v.toNat ∨ data.length < v.toNat → removePkcs7 data bs = none) ∧
      (1 ≤ v.toNat → v.toNat ≤ bs → v.toNat ≤ data.length →
        removePkcs7 data bs = some (data.take (data.length - v.toNat))))

/-! ### Modes of operation -/

/-- Derived from R188 and R208: every mode keeps the length, a block mode on aligned data, a stream mode on any. -/
def Obligations.ModesKeepTheLength : Prop :=
  ∀ (P : Params) (m : Mode) (k v s : Bytes), P.Valid → (m ≠ .ecb → v.length = P.B) →
    (blockMode m = true → s.length % P.B = 0) →
    (modeEnc P m k v s).length = s.length ∧ (modeDec P m k v s).length = s.length

/-- R186: in one ECB transformation equal input blocks give equal output blocks, in both directions. -/
def Obligations.EcbIsDeterministicPerBlock : Prop :=
  ∀ (P : Params) (k v s : Bytes) (i j : Nat), P.Valid → s.length % P.B = 0 → i < s.length / P.B → j < s.length / P.B →
    (s.drop (i * P.B)).take P.B = (s.drop (j * P.B)).take P.B →
    ((modeEnc P .ecb k v s).drop (i * P.B)).take P.B = ((modeEnc P .ecb k v s).drop (j * P.B)).take P.B ∧
    ((modeDec P .ecb k v s).drop (i * P.B)).take P.B = ((modeDec P .ecb k v s).drop (j * P.B)).take P.B

/-- Derived from R205 (Corner cases): block `j` of the CTR output is the data XORed with `E(KEY, IV + j)`, the addition
big-endian modulo `256^B`. -/
def Obligations.CtrKeystreamIsTheIvPlusTheBlockNumber : Prop :=
  ∀ (P : Params) (k v s : Bytes) (j : Nat), P.Valid → v.length = P.B → j * P.B < s.length →
    ∃ c : Bytes, c.length = P.B ∧
      c.foldl (fun n b => 256 * n + b.toNat) 0 = (v.foldl (fun n b => 256 * n + b.toNat) 0 + j) % 256 ^ P.B ∧
      ((modeEnc P .ctr k v s).drop (j * P.B)).take P.B = xorBytes ((s.drop (j * P.B)).take P.B) (P.enc k c)

/-- Derived from R209: OFB and CTR are the same function in both directions, and every stream mode decrypts what it
encrypted, with no assumption on the adapter. -/
def Obligations.StreamModesRoundTrip : Prop :=
  ∀ (P : Params) (k v s : Bytes), P.Valid → v.length = P.B →
    modeEnc P .ofb k v s = modeDec P .ofb k v s ∧ modeEnc P .ctr k v s = modeDec P .ctr k v s ∧
    ∀ m : Mode, blockMode m = false → modeDec P m k v (modeEnc P m k v s) = s

/-- R189: under `AdapterInverse` the block modes decrypt what they encrypted, and the whole transformation gives back the
data, or the data without its trailing zero bytes for Zero padding. -/
def Obligations.BlockModesRoundTripUnderAdapterInverse : Prop :=
  ∀ (P : Params) (m p : Byte) (k v data : Bytes), P.Valid → P.AdapterInverse →
    (∀ (md : Mode) (s : Bytes), blockMode md = true → P.keyOk k = true → (md ≠ .ecb → v.length = P.B) →
      s.length % P.B = 0 → modeDec P md k v (modeEnc P md k v s) = s) ∧
    (∀ c : Bytes, m = 1 ∨ m = 2 → encryptRef P m p k v data = .ok c →
      decryptRef P m p k v c = .ok (if p = 2 then removeZero data else data))

/-! ### Whole transformations -/

/-- Derived from R149, for ENC: from READY, the engine left to itself ends in READY with exactly what `Encrypt` says,
whatever else the state held. That a step with no event waiting is the engine's is the model's choice (assumption 1). -/
def Obligations.EncAgreesWithEncrypt : Prop :=
  ∀ s t : State, s.Inv → s.mpe.phase = .ready → s.inputs = [] →
    exec .enc s = .next t →
    ∃ (n : Nat) (u : State), runSteps n t = .next u ∧ u.mpe.phase = .ready ∧
      u.mpe.mode = s.mpe.mode ∧ u.mpe.pad = s.mpe.pad ∧ u.mpe.key = s.mpe.key ∧ u.mpe.iv = s.mpe.iv ∧
      u.mpe.inp = [] ∧ u.mpe.dir = .encrypt ∧
      match encryptRef Config.params s.mpe.mode s.mpe.pad s.mpe.key s.mpe.iv s.mpe.inp with
      | .ok r => u.mpe.out = r ∧ u.mpe.done = true ∧ u.mpe.err = none
      | .error e => u.mpe.out = [] ∧ u.mpe.done = false ∧ u.mpe.err = some e

/-- Derived from R149, for DEC, as `EncAgreesWithEncrypt`: from READY, the engine left to itself ends in READY with exactly
what `Decrypt` says. That a step with no event waiting is the engine's is the model's choice (assumption 1). -/
def Obligations.DecAgreesWithDecrypt : Prop :=
  ∀ s t : State, s.Inv → s.mpe.phase = .ready → s.inputs = [] →
    exec .dec s = .next t →
    ∃ (n : Nat) (u : State), runSteps n t = .next u ∧ u.mpe.phase = .ready ∧
      u.mpe.mode = s.mpe.mode ∧ u.mpe.pad = s.mpe.pad ∧ u.mpe.key = s.mpe.key ∧ u.mpe.iv = s.mpe.iv ∧
      u.mpe.inp = [] ∧ u.mpe.dir = .decrypt ∧
      match decryptRef Config.params s.mpe.mode s.mpe.pad s.mpe.key s.mpe.iv s.mpe.inp with
      | .ok r => u.mpe.out = r ∧ u.mpe.done = true ∧ u.mpe.err = none
      | .error e => u.mpe.out = [] ∧ u.mpe.done = false ∧ u.mpe.err = some e

/-- Derived from R150: from an accepted ENC or DEC that started a transformation the engine is busy for exactly `NBLK + 2`
steps in a block mode and `NBLK + 1` in a stream mode, `NBLK = ceil(L' / B)` with `L'` the length after padding, and idle
from then on. R150 counts engine steps; that a step with no event waiting is one is the model's choice (assumption 1), and
nothing is said about delay. -/
def Obligations.TransformationsTakeTheStatedNumberOfSteps : Prop :=
  ∀ (s t : State) (i : Instr) (len n steps : Nat), s.Inv → i = .enc ∨ i = .dec → s.mpe.phase = .ready →
    s.inputs = [] → exec i s = .next t → busy t.mpe.phase = true →
    len = (if i = .enc ∧ inBlockMode s.mpe ∧ s.mpe.pad ≠ 1 then
        s.mpe.inp.length + padLen s.mpe.inp.length Config.params.B else s.mpe.inp.length) →
    steps = (len + Config.params.B - 1) / Config.params.B + (if inBlockMode s.mpe then 2 else 1) →
    ∃ u : State, runSteps n t = .next u ∧ (busy u.mpe.phase = true ↔ n < steps)

/-- Derived from R64, R149 and, for the bound, R150: turns of the engine, NOP, reads, and words that are no command (refused
ILLEGAL or OPERAND), in any order between the steps of a transformation leave its final state what it is without them, once
the engine has had as many turns as R150 allows. Commands refused BUSY are `CommandsAreAcceptedByPhase`'s. That events wait
in a list and a silent host lets the engine move is the model's choice (assumption 1). -/
def Obligations.InterleavingDoesNotChangeTheResult : Prop :=
  ∀ (s : State) (l : List Input), s.Inv → busy s.mpe.phase = true → (∀ e ∈ l, e.undisturbing = true) →
    ceilDiv Config.params.nmax Config.params.B + 3 ≤ l.count .engineTurn →
    ∃ u u' : State,
      runSteps l.length { s with inputs := l } = .next u ∧
      runSteps (ceilDiv Config.params.nmax Config.params.B + 3) { s with inputs := [] } = .next u' ∧
      u.mpe.phase = .ready ∧ u.mpe = u'.mpe ∧ u.atrace = u'.atrace

/-- Derived from R151: the same direction on the same input under the same configuration gives the same output and status,
whatever the two machines held otherwise. That a step with no event waiting is the engine's is the model's choice
(assumption 1). -/
def Obligations.TransformationsAreRepeatable : Prop :=
  ∀ (s s' t t' : State) (i : Instr) (n : Nat), s.Inv → s'.Inv → i = .enc ∨ i = .dec →
    s.mpe.phase = .ready → s'.mpe.phase = .ready →
    s.mpe.mode = s'.mpe.mode → s.mpe.pad = s'.mpe.pad → s.mpe.key = s'.mpe.key → s.mpe.iv = s'.mpe.iv →
    s.mpe.inp = s'.mpe.inp → s.inputs = [] → s'.inputs = [] → exec i s = .next t → exec i s' = .next t' →
    ∃ u u' : State, runSteps n t = .next u ∧ runSteps n t' = .next u' ∧ u.mpe = u'.mpe

/-! ### Invariants -/

/-- Derived from R38 and R41. -/
def Obligations.ResetMeetsTheInvariant : Prop :=
  State.reset.Inv

/-- Derived from R38 items 1 to 7 (with the facts of assumption 8 beside them): every step keeps the invariant, from every
state that meets it. -/
def Obligations.EveryStepKeepsTheInvariant : Prop :=
  ∀ s t : State, s.Inv → step s = .next t → t.Inv

/-- Derived from R38, R40 and 93_implementation_defined.md 1.3: in a state of the invariant no step stops the machine. -/
def Obligations.NoStepStopsInTheInvariant : Prop :=
  ∀ s : State, s.Inv → ∃ t : State, step s = .next t

/-- Derived from R10 with R183 and R203: an adapter call is made by a RUN block step only, exactly one by each, on a block
of exactly `B` bytes, after validation has passed, and it is `D` exactly when a block mode decrypts. -/
def Obligations.AdapterCallsFollowValidation : Prop :=
  ∀ (P : Params) (m m' : Mpe) (calls : List AdapterCall), P.Valid → m.Inv P → engineStep P m = .stepped m' calls →
    (m.phase = .run ∧ m.blk < m.nblk →
      GoodConfig P m ∧ ∃ c : AdapterCall, calls = [c] ∧ c.block.length = P.B ∧
        (c.op = .D ↔ m.dir = .decrypt ∧ inBlockMode m) ∧ (inStreamMode m → c.block = m.fb)) ∧
    (¬(m.phase = .run ∧ m.blk < m.nblk) → calls = [])

/-- Derived from R32 and R241: an error code stays until the next accepted ENC, DEC, CLRD or CLEAR, or reset. -/
def Obligations.ErrorsStayUntilCleared : Prop :=
  ∀ (s t : State) (e : ErrorKind), s.Inv → step s = .next t → s.mpe.err = some e →
    s.inputs.head? ∉
      [some (.command 0x0A000000#32), some (.command 0x0B000000#32), some (.command 0x09000000#32),
        some (.command 0x06000000#32), some .assertReset] →
    t.mpe.err = some e

/-- Derived from R31, R32, R38 item 7, R71, R272, and for the failure from R171, R237, R238: from a state of the invariant,
a step that leaves the engine's work ends it in exactly one of two ways, complete with its whole result, or failed by
InvalidPadding with no input and no output left and `FB` and `KS` zero. -/
def Obligations.TransformationsEndCompleteOrEmpty : Prop :=
  ∀ s t : State, s.Inv → step s = .next t → busy s.mpe.phase = true → t.mpe.phase = .ready →
    t.mpe.inp = [] ∧
      (t.mpe.done = true ∧ t.mpe.err = none ∨
        t.mpe.done = false ∧ t.mpe.err = some .invalidPadding ∧ t.mpe.out = [] ∧
          t.mpe.fb = List.replicate Config.params.B 0#8 ∧ t.mpe.ks = List.replicate Config.params.B 0#8)
end

