-- ==== Sys2Proof/Laws/State.lean ====
section
/-! SUPPORT. One lemma per field per update of the state. -/

namespace Sys2Proof.Machine

section Reply
variable (s : State) (r : Mpe × Word)

@[simp] theorem reply_mpe : (s.reply r).mpe = r.1 := rfl
@[simp] theorem reply_inputs : (s.reply r).inputs = s.inputs := rfl
@[simp] theorem reply_resps : (s.reply r).resps = s.resps ++ [r.2] := rfl
@[simp] theorem reply_atrace : (s.reply r).atrace = s.atrace := rfl
@[simp] theorem respond_eq : s.respond r = .next (s.reply r) := rfl

end Reply

section Fail
variable (P : Params) (e : ErrorKind) (m : Mpe)

@[simp] theorem fail_fb : (fail P e m).fb = rep P.B 0 := rfl
@[simp] theorem fail_ks : (fail P e m).ks = rep P.B 0 := rfl
@[simp] theorem fail_mode : (fail P e m).mode = m.mode := rfl
@[simp] theorem fail_pad : (fail P e m).pad = m.pad := rfl
@[simp] theorem fail_key : (fail P e m).key = m.key := rfl
@[simp] theorem fail_iv : (fail P e m).iv = m.iv := rfl
@[simp] theorem fail_inp : (fail P e m).inp = [] := rfl
@[simp] theorem fail_out : (fail P e m).out = [] := rfl
@[simp] theorem fail_dir : (fail P e m).dir = m.dir := rfl
@[simp] theorem fail_done : (fail P e m).done = false := rfl
@[simp] theorem fail_err : (fail P e m).err = some e := rfl
@[simp] theorem fail_blk : (fail P e m).blk = m.blk := rfl
@[simp] theorem fail_nblk : (fail P e m).nblk = m.nblk := rfl
@[simp] theorem fail_phase : (fail P e m).phase = .ready := rfl

end Fail

section StartClear
variable (P : Params) (d : Dir) (m : Mpe)

@[simp] theorem startClear_fb : (startClear P d m).fb = m.fb := rfl
@[simp] theorem startClear_ks : (startClear P d m).ks = rep P.B 0 := rfl
@[simp] theorem startClear_mode : (startClear P d m).mode = m.mode := rfl
@[simp] theorem startClear_pad : (startClear P d m).pad = m.pad := rfl
@[simp] theorem startClear_key : (startClear P d m).key = m.key := rfl
@[simp] theorem startClear_iv : (startClear P d m).iv = m.iv := rfl
@[simp] theorem startClear_inp : (startClear P d m).inp = m.inp := rfl
@[simp] theorem startClear_out : (startClear P d m).out = [] := rfl
@[simp] theorem startClear_dir : (startClear P d m).dir = d := rfl
@[simp] theorem startClear_done : (startClear P d m).done = false := rfl
@[simp] theorem startClear_err : (startClear P d m).err = none := rfl
@[simp] theorem startClear_blk : (startClear P d m).blk = 0 := rfl
@[simp] theorem startClear_nblk : (startClear P d m).nblk = 0 := rfl
@[simp] theorem startClear_phase : (startClear P d m).phase = m.phase := rfl

end StartClear

section ClearFlags
variable (m : Mpe)

@[simp] theorem clearFlags_fb : (clearFlags m).fb = m.fb := rfl
@[simp] theorem clearFlags_ks : (clearFlags m).ks = m.ks := rfl
@[simp] theorem clearFlags_mode : (clearFlags m).mode = m.mode := rfl
@[simp] theorem clearFlags_pad : (clearFlags m).pad = m.pad := rfl
@[simp] theorem clearFlags_key : (clearFlags m).key = m.key := rfl
@[simp] theorem clearFlags_iv : (clearFlags m).iv = m.iv := rfl
@[simp] theorem clearFlags_inp : (clearFlags m).inp = m.inp := rfl
@[simp] theorem clearFlags_out : (clearFlags m).out = m.out := rfl
@[simp] theorem clearFlags_dir : (clearFlags m).dir = m.dir := rfl
@[simp] theorem clearFlags_done : (clearFlags m).done = false := rfl
@[simp] theorem clearFlags_err : (clearFlags m).err = none := rfl
@[simp] theorem clearFlags_blk : (clearFlags m).blk = m.blk := rfl
@[simp] theorem clearFlags_nblk : (clearFlags m).nblk = m.nblk := rfl
@[simp] theorem clearFlags_phase : (clearFlags m).phase = m.phase := rfl

end ClearFlags

section Complete
variable (m : Mpe)

@[simp] theorem complete_fb : (complete m).fb = m.fb := rfl
@[simp] theorem complete_ks : (complete m).ks = m.ks := rfl
@[simp] theorem complete_mode : (complete m).mode = m.mode := rfl
@[simp] theorem complete_pad : (complete m).pad = m.pad := rfl
@[simp] theorem complete_key : (complete m).key = m.key := rfl
@[simp] theorem complete_iv : (complete m).iv = m.iv := rfl
@[simp] theorem complete_inp : (complete m).inp = m.inp := rfl
@[simp] theorem complete_out : (complete m).out = m.out := rfl
@[simp] theorem complete_dir : (complete m).dir = m.dir := rfl
@[simp] theorem complete_done : (complete m).done = true := rfl
@[simp] theorem complete_err : (complete m).err = m.err := rfl
@[simp] theorem complete_blk : (complete m).blk = m.blk := rfl
@[simp] theorem complete_nblk : (complete m).nblk = m.nblk := rfl
@[simp] theorem complete_phase : (complete m).phase = .ready := rfl

end Complete

section EmitBlock
variable (n : Nat) (y : Bytes) (m : Mpe)

@[simp] theorem emitBlock_fb : (emitBlock n y m).fb = m.fb := rfl
@[simp] theorem emitBlock_ks : (emitBlock n y m).ks = m.ks := rfl
@[simp] theorem emitBlock_mode : (emitBlock n y m).mode = m.mode := rfl
@[simp] theorem emitBlock_pad : (emitBlock n y m).pad = m.pad := rfl
@[simp] theorem emitBlock_key : (emitBlock n y m).key = m.key := rfl
@[simp] theorem emitBlock_iv : (emitBlock n y m).iv = m.iv := rfl
@[simp] theorem emitBlock_inp : (emitBlock n y m).inp = m.inp.drop n := rfl
@[simp] theorem emitBlock_out : (emitBlock n y m).out = m.out ++ y := rfl
@[simp] theorem emitBlock_dir : (emitBlock n y m).dir = m.dir := rfl
@[simp] theorem emitBlock_done : (emitBlock n y m).done = m.done := rfl
@[simp] theorem emitBlock_err : (emitBlock n y m).err = m.err := rfl
@[simp] theorem emitBlock_blk : (emitBlock n y m).blk = m.blk + 1 := rfl
@[simp] theorem emitBlock_nblk : (emitBlock n y m).nblk = m.nblk := rfl
@[simp] theorem emitBlock_phase : (emitBlock n y m).phase = m.phase := rfl

end EmitBlock

section Reset
variable (P : Params)

@[simp] theorem reset_fb : (Mpe.reset P).fb = rep P.B 0 := rfl
@[simp] theorem reset_ks : (Mpe.reset P).ks = rep P.B 0 := rfl
@[simp] theorem reset_mode : (Mpe.reset P).mode = 0 := rfl
@[simp] theorem reset_pad : (Mpe.reset P).pad = 0 := rfl
@[simp] theorem reset_key : (Mpe.reset P).key = [] := rfl
@[simp] theorem reset_iv : (Mpe.reset P).iv = [] := rfl
@[simp] theorem reset_inp : (Mpe.reset P).inp = [] := rfl
@[simp] theorem reset_out : (Mpe.reset P).out = [] := rfl
@[simp] theorem reset_dir : (Mpe.reset P).dir = .encrypt := rfl
@[simp] theorem reset_done : (Mpe.reset P).done = false := rfl
@[simp] theorem reset_err : (Mpe.reset P).err = none := rfl
@[simp] theorem reset_blk : (Mpe.reset P).blk = 0 := rfl
@[simp] theorem reset_nblk : (Mpe.reset P).nblk = 0 := rfl
@[simp] theorem reset_phase : (Mpe.reset P).phase = .build := rfl
@[simp] theorem stateReset_mpe : State.reset.mpe = Mpe.reset Config.params := rfl

end Reset

end Sys2Proof.Machine
end

