-- ==== Sys2Proof/Laws/Ops.lean ====
section
/-! SUPPORT. What the shared operations do: byte sequences, counts, adapter calls, response words, the phase check. -/

namespace Sys2Proof.Machine

/-! ### Parameters -/

/-- The machine's parameters meet the constraints of R5 and R7. -/
theorem config_valid : Config.params.Valid := by
  have hb : Config.params.B = Config.blockSizePred.val + 1 := rfl
  have hn : Config.params.nmax = Config.nmaxIndex.val := rfl
  have := Config.blockSizePred.isLt
  have := Config.nmaxIndex.isLt
  unfold Params.Valid
  omega

theorem valid_pos {P : Params} (h : P.Valid) : 0 < P.B := h.1

/-! ### Byte sequences -/

@[simp] theorem rep_length (n : Nat) (v : Byte) : (rep n v).length = n := by simp [rep]

@[simp] theorem xorBytes_length (a b : Bytes) : (xorBytes a b).length = min a.length b.length := by
  simp [xorBytes]

@[simp] theorem xorBytes_nil (b : Bytes) : xorBytes [] b = [] := rfl

/-- XOR with the same bytes twice is the identity (R209). -/
theorem xorBytes_xorBytes (a b : Bytes) (h : a.length ≤ b.length) : xorBytes (xorBytes a b) b = a := by
  induction a generalizing b with
  | nil => rfl
  | cons x xs ih =>
    cases b with
    | nil => simp at h
    | cons y ys =>
      have := ih ys (by simpa using h)
      simp only [xorBytes] at this ⊢
      simp [this]

/-- XOR of two sequences of one length does not depend on their order. -/
theorem xorBytes_comm (a b : Bytes) : xorBytes a b = xorBytes b a := by
  simp only [xorBytes]
  rw [List.zipWith_comm]
  simp [BitVec.xor_comm]

/-! ### Counts -/

theorem ceilDiv_zero_left (B : Nat) (hB : 0 < B) : ceilDiv 0 B = 0 := by
  unfold ceilDiv
  exact Nat.div_eq_of_lt (by omega)

/-- `ceil(L / B)` is the number of full blocks when `L` is a multiple of `B`. -/
theorem ceilDiv_of_mod_eq_zero (L B : Nat) (hB : 0 < B) (h : L % B = 0) : ceilDiv L B = L / B := by
  unfold ceilDiv
  obtain ⟨q, rfl⟩ := Nat.dvd_of_mod_eq_zero h
  rw [Nat.mul_div_cancel_left _ hB, Nat.add_sub_assoc hB, Nat.mul_add_div hB,
    Nat.div_eq_of_lt (by omega : B - 1 < B), Nat.add_zero]

theorem ceilDiv_mul (q B : Nat) (hB : 0 < B) : ceilDiv (q * B) B = q := by
  rw [ceilDiv_of_mod_eq_zero _ _ hB (Nat.mul_mod_left q B), Nat.mul_div_cancel _ hB]

/-- Taking one block off leaves one block fewer. -/
theorem ceilDiv_sub (L B : Nat) (hB : 0 < B) (hL : 0 < L) : ceilDiv (L - B) B = ceilDiv L B - 1 := by
  unfold ceilDiv
  have hq : (L + B - 1) / B = (L - 1) / B + 1 := by
    rw [show L + B - 1 = L - 1 + B by omega, Nat.add_div_right _ hB]
  rcases Nat.lt_or_ge B L with h | h
  · have : (L - B + B - 1) / B = (L - 1) / B := by rw [show L - B + B - 1 = L - 1 by omega]
    rw [this, hq, Nat.add_sub_cancel]
  · have h1 : (L - B + B - 1) / B = 0 := Nat.div_eq_of_lt (by omega)
    have h2 : (L - 1) / B = 0 := Nat.div_eq_of_lt (by omega)
    rw [h1, hq, h2]

theorem ceilDiv_eq_zero_iff (L B : Nat) (hB : 0 < B) : ceilDiv L B = 0 ↔ L = 0 := by
  unfold ceilDiv
  rw [Nat.div_eq_zero_iff]
  omega

theorem ceilDiv_le (L B : Nat) (hB : 0 < B) : ceilDiv L B ≤ L := by
  unfold ceilDiv
  apply Nat.lt_succ_iff.mp
  rw [Nat.div_lt_iff_lt_mul hB]
  nlinarith [Nat.sub_add_cancel (by omega : 1 ≤ L + B)]

/-- One block more is one block more. -/
theorem ceilDiv_add (L B : Nat) (hB : 0 < B) : ceilDiv (L + B) B = ceilDiv L B + 1 := by
  unfold ceilDiv
  rw [show L + B + B - 1 = L + B - 1 + B by omega, Nat.add_div_right _ hB]

theorem ceilDiv_mono {a b B : Nat} (h : a ≤ b) : ceilDiv a B ≤ ceilDiv b B := Nat.div_le_div_right (by omega)

/-- A count that fits 24 bits is held exactly. -/
theorem count24_toNat (n : Nat) (h : n < 2 ^ 24) : (count24 n).toNat = n := by
  rw [count24, BitVec.toNat_ofNat, Nat.mod_eq_of_lt h]

/-! ### Adapter calls -/

/-- `E` gives a block of `B` bytes for a block of `B` bytes (R6). -/
theorem enc_length (P : Params) (k x : Bytes) (h : x.length = P.B) : (P.enc k x).length = P.B := by
  simp [Params.enc, h]

/-- `D` gives a block of `B` bytes for a block of `B` bytes (R6). -/
theorem dec_length (P : Params) (k x : Bytes) (h : x.length = P.B) : (P.dec k x).length = P.B := by
  simp [Params.dec, h]

/-- `AdapterInverse` on byte sequences. -/
theorem dec_enc (P : Params) (hinv : P.AdapterInverse) (k x : Bytes) (hk : P.keyOk k = true) (h : x.length = P.B) :
    P.dec k (P.enc k x) = x := by
  have hl := enc_length P k x h
  unfold Params.dec
  rw [dif_pos hl]
  have : (⟨(P.enc k x).toArray, by simpa using hl⟩ : Vector Byte P.B) = P.E k ⟨x.toArray, by simpa using h⟩ := by
    apply Vector.toArray_inj.mp
    simp [Params.enc, h]
  rw [this, hinv k hk]

theorem callE_ok (P : Params) (k x : Bytes) (use : Bytes → EngineResult) (h : x.length = P.B) :
    callE P k x use = use (P.enc k x) := if_pos h

theorem callD_ok (P : Params) (k x : Bytes) (use : Bytes → EngineResult) (h : x.length = P.B) :
    callD P k x use = use (P.dec k x) := if_pos h

/-- All a call of `E` can lead to. -/
theorem callE_stepped {P : Params} {k x : Bytes} {use : Bytes → EngineResult} {m : Mpe} {calls : List AdapterCall}
    (h : callE P k x use = .stepped m calls) : x.length = P.B ∧ use (P.enc k x) = .stepped m calls := by
  unfold callE at h
  split at h
  · exact ⟨‹_›, h⟩
  · cases h

/-- All a call of `D` can lead to. -/
theorem callD_stepped {P : Params} {k x : Bytes} {use : Bytes → EngineResult} {m : Mpe} {calls : List AdapterCall}
    (h : callD P k x use = .stepped m calls) : x.length = P.B ∧ use (P.dec k x) = .stepped m calls := by
  unfold callD at h
  split at h
  · exact ⟨‹_›, h⟩
  · cases h

/-! ### Responses -/

@[simp] theorem ackWord_toNat (p : BitVec 24) : (ackWord p).toNat = p.toNat := by
  have := p.isLt
  simp only [ackWord, BitVec.toNat_setWidth]
  exact Nat.mod_eq_of_lt (by omega)

theorem ackWord_lt (p : BitVec 24) : (ackWord p).toNat < 2 ^ 24 := by
  rw [ackWord_toNat]
  exact p.isLt

theorem ackWord_nak_bit (p : BitVec 24) : (ackWord p).getLsbD 31 = false := by
  simp [ackWord]

theorem nak_nak_bit (r : Reason) : (nakWord r).getLsbD 31 = true := by
  cases r <;> decide

@[simp] theorem ackWord_zero : ackWord 0#24 = 0#32 := by decide

/-- The NAK bit of an accepted command's response, as `simp` writes it. -/
@[simp] theorem ackWord_getElem_31 (p : BitVec 24) : (ackWord p)[31] = false := by simp [ackWord]

/-- The NAK bit of a refused command's response, as `simp` writes it. -/
@[simp] theorem nak_getElem_31 (r : Reason) : (nakWord r)[31] = true := by cases r <;> decide

theorem nak_illegal : nakWord .illegal = 0x81000000#32 := by decide
theorem nak_operand : nakWord .operand = 0x82000000#32 := by decide
theorem nak_busy : nakWord .busy = 0x83000000#32 := by decide
theorem nak_locked : nakWord .locked = 0x84000000#32 := by decide
theorem nak_unlocked : nakWord .unlocked = 0x85000000#32 := by decide
theorem nak_full : nakWord .full = 0x86000000#32 := by decide
theorem nak_empty : nakWord .empty = 0x87000000#32 := by decide

/-- A refusal word is `0x80000000 + r * 2^24` with `r` from 1 to 7 (R81, R83). -/
theorem nak_value (r : Reason) : ∃ n : Nat, 1 ≤ n ∧ n ≤ 7 ∧ nakWord r = BitVec.ofNat 32 (0x80000000 + n * 2 ^ 24) :=
  ⟨(reasonCode r).toNat, by cases r <;> decide, by cases r <;> decide, by cases r <;> decide⟩

/-- A byte payload is its byte, as a word. -/
theorem ackWord_byte (b : Byte) : ackWord (bytePayload b) = BitVec.ofNat 32 b.toNat := by
  apply BitVec.eq_of_toNat_eq
  have := b.isLt
  rw [ackWord_toNat]
  simp only [bytePayload, BitVec.toNat_setWidth, BitVec.toNat_ofNat]
  omega

/-! ### The phase check -/

/-- The configuration commands are accepted in BUILD only (R92). -/
theorem phaseCheck_config (p : Phase) : phaseCheck .config p = none ↔ p = .build := by cases p <;> simp [phaseCheck]

/-- The data commands are accepted in READY only (R92). -/
theorem phaseCheck_data (p : Phase) : phaseCheck .data p = none ↔ p = .ready := by cases p <;> simp [phaseCheck]

theorem gated_of_refused {c : CmdClass} {m : Mpe} {r : Reason} (acc : Mpe × Word) (h : phaseCheck c m.phase = some r) :
    gated c m acc = (m, nakWord r) := by
  simp [gated, h]

theorem gated_of_accepted {c : CmdClass} {m : Mpe} (acc : Mpe × Word) (h : phaseCheck c m.phase = none) :
    gated c m acc = acc := by
  simp [gated, h]

@[simp] theorem gated_always (m : Mpe) (acc : Mpe × Word) : gated .always m acc = acc := rfl

/-- All a gated command can do: be refused with nothing written, or do what it does when accepted. -/
theorem gated_cases (c : CmdClass) (m : Mpe) (acc : Mpe × Word) :
    (∃ r, phaseCheck c m.phase = some r ∧ gated c m acc = (m, nakWord r)) ∨
      (phaseCheck c m.phase = none ∧ gated c m acc = acc) := by
  cases h : phaseCheck c m.phase with
  | none => exact .inr ⟨rfl, gated_of_accepted acc h⟩
  | some r => exact .inl ⟨r, rfl, gated_of_refused acc h⟩

end Sys2Proof.Machine
end

