-- ==== Sys2Proof/Laws/Commands.lean ====
section
/-! SUPPORT. What a command can do, said once: every command is one reply (spec 00_scope.md R11), and the step's cases. -/

namespace Sys2Proof.Machine

/-- What a command makes of the MPE and what it returns, for any parameters. -/
def cmdOf (P : Params) : Instr → Mpe → Mpe × Word
  | .nop => cmdNop
  | .setmode imm => cmdSetmode imm
  | .setpad imm => cmdSetpad imm
  | .pushkey imm => cmdPushkey imm
  | .pushiv imm => cmdPushiv imm
  | .lock => cmdLock
  | .clear => cmdClear P
  | .pushd imm => cmdPushd P imm
  | .clrd => cmdClrd
  | .enc => cmdEnc P
  | .dec => cmdDec P
  | .popd => cmdPopd
  | .rdstat => cmdRdstat
  | .rdcfg => cmdRdcfg
  | .rdilen => cmdRdilen
  | .rdolen => cmdRdolen
  | .rdklen => cmdRdklen
  | .rdbs => cmdRdbs P
  | .rdblk => cmdRdblk

/-- Every command answers a next state: the MPE its rule leaves, and one response more. -/
theorem exec_eq (i : Instr) (s : State) : exec i s = .next (s.reply (cmdOf Config.params i s.mpe)) := by
  cases i <;> rfl

/-- A presented word answers a next state: a command's reply, or a refusal with nothing written. -/
theorem present_eq (w : Word) (s : State) :
    present w s =
      .next (s.reply (match decode w with
        | .instr i => cmdOf Config.params i s.mpe
        | .illegal => (s.mpe, nakWord .illegal)
        | .operand => (s.mpe, nakWord .operand))) := by
  unfold present
  cases decode w with
  | instr i => exact exec_eq i s
  | illegal => rfl
  | operand => rfl

/-- All a turn of the engine can do. -/
theorem engineTurn_cases {s t : State} (h : engineTurn s = .next t) :
    (engineStep Config.params s.mpe = .idle ∧ t = s) ∨
      ∃ m calls, engineStep Config.params s.mpe = .stepped m calls ∧
        t = { s with mpe := m, atrace := s.atrace ++ calls } := by
  unfold engineTurn at h
  split at h
  · cases h
    exact .inl ⟨‹_›, rfl⟩
  · cases h
    exact .inr ⟨_, _, ‹_›, rfl⟩
  · cases h

theorem step_of_nil {s : State} (h : s.inputs = []) : step s = engineTurn s := by
  unfold step
  rw [h]

theorem step_of_command {s : State} {w : Word} {rest : List Input} (h : s.inputs = .command w :: rest) :
    step s = present w { s with inputs := rest } := by
  unfold step
  rw [h]

theorem step_of_engineTurn {s : State} {rest : List Input} (h : s.inputs = .engineTurn :: rest) :
    step s = engineTurn { s with inputs := rest } := by
  unfold step
  rw [h]

theorem step_of_assertReset {s : State} {rest : List Input} (h : s.inputs = .assertReset :: rest) :
    step s = .next { s with inputs := rest, mpe := Mpe.reset Config.params } := by
  unfold step
  rw [h]
  rfl

/-- All a step can do: the engine's turn, a presented word, or reset. -/
theorem step_cases {s t : State} (h : step s = .next t) :
    (∃ rest, (s.inputs = .engineTurn :: rest ∨ s.inputs = [] ∧ rest = []) ∧
      engineTurn { s with inputs := rest } = .next t) ∨
    (∃ w rest, s.inputs = .command w :: rest ∧ present w { s with inputs := rest } = .next t) ∨
    (∃ rest, s.inputs = .assertReset :: rest ∧ t = { s with inputs := rest, mpe := Mpe.reset Config.params }) := by
  cases hi : s.inputs with
  | nil =>
    rw [step_of_nil hi] at h
    have hs : { s with inputs := [] } = s := by rw [← hi]
    exact .inl ⟨[], .inr ⟨rfl, rfl⟩, by rwa [hs]⟩
  | cons e rest =>
    cases e with
    | command w =>
      rw [step_of_command hi] at h
      exact .inr (.inl ⟨w, rest, rfl, h⟩)
    | engineTurn =>
      rw [step_of_engineTurn hi] at h
      exact .inl ⟨rest, .inl rfl, h⟩
    | assertReset =>
      rw [step_of_assertReset hi] at h
      cases h
      exact .inr (.inr ⟨rest, rfl, rfl⟩)

/-- All Start can do (R144). -/
theorem start_cases (P : Params) (d : Dir) (m : Mpe) :
    (∃ e, startError P d m = some e ∧
      start P d m = (fail P e (startClear P d m), ackWord (bytePayload (errorCode e)))) ∨
    (startError P d m = none ∧ d = .encrypt ∧ (m.mode = 1 ∨ m.mode = 2) ∧
      start P d m =
        ({ startClear P d m with fb := if m.mode = 2 then rep P.B 0 else m.iv, phase := .pad }, ackWord 0)) ∨
    (startError P d m = none ∧ ¬(d = .encrypt ∧ (m.mode = 1 ∨ m.mode = 2)) ∧
      start P d m =
        ({ startClear P d m with
            fb := if m.mode = 2 then rep P.B 0 else m.iv
            nblk := count24 (ceilDiv m.inp.length P.B)
            phase := .run }, ackWord 0)) := by
  unfold start
  cases h : startError P d m with
  | some e => exact .inl ⟨e, rfl, rfl⟩
  | none =>
    by_cases hc : d = .encrypt ∧ (m.mode = 1 ∨ m.mode = 2)
    · exact .inr (.inl ⟨rfl, hc.1, hc.2, by simp only [if_pos hc]⟩)
    · exact .inr (.inr ⟨rfl, hc, by simp only [if_neg hc]⟩)

end Sys2Proof.Machine
end

