-- ==== Sys2Proof/Laws/Config.lean ====
section
/-! SUPPORT. What the mode and padding codes name, and what validation establishes (spec 30_encoding.md R85, R86;
42_transform_commands.md R140, R141). -/

namespace Sys2Proof.Machine

theorem modeOf_modeCode (m : Mode) : modeOf (modeCode m) = some m := by cases m <;> decide

theorem schemeOf_schemeCode (p : PadScheme) : schemeOf (schemeCode p) = some p := by cases p <;> decide

/-- A code names a mode exactly when it is that mode's code (R85). -/
theorem modeOf_eq_some (c : Byte) (m : Mode) : modeOf c = some m ↔ c = modeCode m := by
  constructor
  · intro h
    unfold modeOf at h
    split at h
    · cases h
      assumption
    · split at h
      · cases h
        assumption
      · split at h
        · cases h
          assumption
        · split at h
          · cases h
            assumption
          · split at h
            · cases h
              assumption
            · cases h
  · rintro rfl
    exact modeOf_modeCode m

/-- A code names a scheme exactly when it is that scheme's code (R86). -/
theorem schemeOf_eq_some (c : Byte) (p : PadScheme) : schemeOf c = some p ↔ c = schemeCode p := by
  constructor
  · intro h
    unfold schemeOf at h
    split at h
    · cases h
      assumption
    · split at h
      · cases h
        assumption
      · split at h
        · cases h
          assumption
        · split at h
          · cases h
            assumption
          · cases h
  · rintro rfl
    exact schemeOf_schemeCode p

theorem modeOf_eq_none (c : Byte) : modeOf c = none ↔ ¬(c = 1 ∨ c = 2 ∨ c = 3 ∨ c = 4 ∨ c = 5) := by
  unfold modeOf
  split_ifs <;> simp_all

theorem schemeOf_eq_none (c : Byte) : schemeOf c = none ↔ ¬(c = 1 ∨ c = 2 ∨ c = 3 ∨ c = 4) := by
  unfold schemeOf
  split_ifs <;> simp_all

/-- Validation passes exactly on a good configuration (R140, R38 item 4). -/
theorem validate_eq_none (P : Params) (m : Mpe) : validate P m = none ↔ GoodConfig P m := by
  unfold validate validateOf
  constructor
  · intro h
    split at h
    · cases h
    · rename_i md hmd
      split at h
      · cases h
      · rename_i sch hsch
        rw [modeOf_eq_some] at hmd
        rw [schemeOf_eq_some] at hsch
        split_ifs at h with h1 h2 h3
        refine ⟨?_, ?_, ?_, ?_, ?_⟩
        · rw [inBlockMode, inStreamMode, hmd]
          cases md <;> decide
        · rw [hsch]
          cases sch <;> decide
        · simpa using h1
        · rw [hmd]
          cases md <;> simp_all [modeCode]
        · rw [hsch]
          cases sch <;> simp_all [schemeCode]
  · intro h
    cases hmd : modeOf m.mode with
    | none =>
      have := (modeOf_eq_none _).mp hmd
      have := h.mode_named
      tauto
    | some md =>
      cases hsch : schemeOf m.pad with
      | none =>
        have := (schemeOf_eq_none _).mp hsch
        exact absurd h.pad_named this
      | some sch =>
        rw [modeOf_eq_some] at hmd
        rw [schemeOf_eq_some] at hsch
        have hiv := h.iv_len
        have hp5 := h.pkcs5_block
        rw [hmd] at hiv
        rw [hsch] at hp5
        simp only
        rw [if_neg (by simp [h.key_ok]), if_neg, if_neg]
        · rintro ⟨rfl, hB⟩
          simp [schemeCode] at hp5
          exact hB hp5
        · rintro ⟨hne, hl⟩
          cases md <;> simp_all [modeCode]

/-- Start finds no error exactly on a good configuration with aligned data where alignment is asked for (R140, R141). -/
theorem startError_eq_none (P : Params) (d : Dir) (m : Mpe) :
    startError P d m = none ↔
      GoodConfig P m ∧ (inBlockMode m → d = .decrypt ∨ m.pad = 1 → m.inp.length % P.B = 0) := by
  unfold startError
  rw [← validate_eq_none]
  cases hv : validate P m with
  | some e => simp
  | none =>
    simp only [alignCheck, inBlockMode, true_and]
    split_ifs with h
    · simp only [false_iff]
      tauto
    · simp only [true_iff]
      tauto

end Sys2Proof.Machine
end

