-- ==== Sys2Proof/Laws/Decode.lean ====
section
/-! SUPPORT. The encoder's words field by field, and the decoder on them (spec 30_encoding.md R80, R82). -/

namespace Sys2Proof

/-- Every command is well-formed: its operand is a byte by its type. -/
theorem instr_wellFormed (i : Instr) : i.wellFormed = true := by
  cases i <;> simp [Instr.wellFormed, Instr.line, AsmLine.wellFormed] <;> exact BitVec.isLt _

/-- Assembling the line of a command gives the command back (R90). -/
theorem assemble_line (i : Instr) : i.line.assemble = some i := by
  have h := instr_wellFormed i
  unfold Instr.wellFormed at h
  unfold AsmLine.assemble
  rw [if_pos h]
  cases i <;> simp [Instr.line, Mnemonic.toInstr]

/-- The opcode field of a row's word with an operand or-ed in is the row's opcode. -/
theorem opcodeField_or (m : Mnemonic) (b : Byte) :
    opcodeField (m.pattern ||| b.setWidth 32) = opcodeField m.pattern := by
  unfold opcodeField
  ext j hj
  simp only [BitVec.getElem_extractLsb', BitVec.getLsbD_or, BitVec.getLsbD_setWidth]
  have : b.getLsbD (24 + j) = false := BitVec.getLsbD_of_ge _ _ (by omega)
  simp [this]

/-- The operand field of a row's word with an operand or-ed in is the operand. -/
theorem immField_or (m : Mnemonic) (b : Byte) : immField (m.pattern ||| b.setWidth 32) = b := by
  unfold immField
  ext j hj
  simp only [BitVec.getElem_extractLsb', BitVec.getLsbD_or, BitVec.getLsbD_setWidth, Nat.zero_add]
  have h1 : m.pattern.getLsbD j = false := by
    have hj' : j = 0 ∨ j = 1 ∨ j = 2 ∨ j = 3 ∨ j = 4 ∨ j = 5 ∨ j = 6 ∨ j = 7 := by omega
    rcases hj' with rfl | rfl | rfl | rfl | rfl | rfl | rfl | rfl <;> cases m <;> decide
  have h2 : decide (j < 32) = true := by simp; omega
  simp [h1, h2, BitVec.getLsbD_eq_getElem hj]

end Sys2Proof
end

