-- ==== Sys2Proof/Laws/Stream.lean ====
section
/-! SUPPORT. The counter increment and the stream step (spec 45_stream_modes.md). -/

namespace Sys2Proof.Machine

@[simp] theorem incCarry_length (c : Bytes) : (incCarry c).length = c.length := by
  induction c with
  | nil => rfl
  | cons b rest ih =>
    unfold incCarry
    split <;> simp [ih]

@[simp] theorem incBe_length (c : Bytes) : (incBe c).length = c.length := by simp [incBe]

/-- The number a byte sequence is, its first byte the least significant. -/
def leNat : Bytes → Nat
  | [] => 0
  | b :: rest => b.toNat + 256 * leNat rest

theorem leNat_lt (c : Bytes) : leNat c < 256 ^ c.length := by
  induction c with
  | nil => simp [leNat]
  | cons b rest ih =>
    have := b.isLt
    simp only [leNat, List.length_cons, Nat.pow_succ]
    omega

/-- The big-endian number of R206, by the reversed sequence. -/
theorem foldl_beNat (c : Bytes) : c.foldl (fun n b => 256 * n + b.toNat) 0 = leNat c.reverse := by
  induction c using List.reverseRecOn with
  | nil => rfl
  | append_singleton xs x ih =>
    rw [List.foldl_append, ih]
    simp [leNat]
    omega

/-- The carry chain adds one, and wraps (R206). -/
theorem leNat_incCarry (c : Bytes) : leNat (incCarry c) = (leNat c + 1) % 256 ^ c.length := by
  induction c with
  | nil => simp [incCarry, leNat]
  | cons b rest ih =>
    have hlt := leNat_lt rest
    have hb := b.isLt
    have hpos : 0 < 256 ^ rest.length := Nat.pow_pos (by omega)
    simp only [incCarry, List.length_cons, Nat.pow_succ]
    split
    · rename_i hff
      subst hff
      simp only [leNat, ih]
      have : (0xFF#8).toNat = 255 := rfl
      rcases Nat.lt_or_ge (leNat rest + 1) (256 ^ rest.length) with h | h
      · rw [Nat.mod_eq_of_lt h, Nat.mod_eq_of_lt (by simp; omega)]
        simp
        omega
      · have heq : leNat rest + 1 = 256 ^ rest.length := by omega
        rw [heq, Nat.mod_self]
        have h2 : (0xFF#8).toNat + 256 * leNat rest + 1 = 256 ^ rest.length * 256 := by
          rw [this, ← heq]
          ring
        simp only [BitVec.ofNat_eq_ofNat] at *
        rw [h2, Nat.mod_self]
        rfl
    · rename_i hff
      simp only [leNat]
      have hne : b.toNat ≠ 255 := fun h => hff (BitVec.eq_of_toNat_eq (by simpa using h))
      have h1 : (b + 1).toNat = b.toNat + 1 := by
        rw [BitVec.toNat_add]
        simp
        omega
      rw [Nat.mod_eq_of_lt (by omega), h1]
      omega

/-- `inc_be` is the increment of the big-endian number (R206). -/
theorem beNat_incBe (c : Bytes) :
    (incBe c).foldl (fun n b => 256 * n + b.toNat) 0 =
      (c.foldl (fun n b => 256 * n + b.toNat) 0 + 1) % 256 ^ c.length := by
  rw [foldl_beNat, foldl_beNat, incBe, List.reverse_reverse, leNat_incCarry, List.length_reverse]

/-- All a stream step can do (R200). -/
theorem streamStep_ok (P : Params) (nextFb : Bytes → Bytes → Bytes → Bytes → Bytes) (m : Mpe)
    (h : m.fb.length = P.B) :
    streamStep P nextFb m =
      .stepped
        { emitBlock (min P.B m.inp.length) (xorBytes (m.inp.take (min P.B m.inp.length)) (P.enc m.key m.fb)) m with
          ks := P.enc m.key m.fb
          fb := nextFb m.fb (P.enc m.key m.fb) (m.inp.take (min P.B m.inp.length))
            (xorBytes (m.inp.take (min P.B m.inp.length)) (P.enc m.key m.fb)) }
        [⟨.E, m.fb⟩] := by
  simp only [streamStep, callE_ok P m.key m.fb _ h]

/-- Taking at most `B` bytes. -/
theorem take_min (B : Nat) (s : Bytes) : s.take (min B s.length) = s.take B := by
  rw [List.take_eq_take_iff]
  omega

/-- Dropping at most `B` bytes. -/
theorem drop_min (B : Nat) (s : Bytes) : s.drop (min B s.length) = s.drop B := by
  rcases Nat.le_total B s.length with h | h
  · rw [Nat.min_eq_left h]
  · rw [Nat.min_eq_right h, List.drop_length, List.drop_eq_nil_of_le h]

/-- The CFB register keeps its length when a segment of `n <= B` bytes is shifted in (R201, R202). -/
theorem shiftIn_length (B n : Nat) (fb y : Bytes) (h1 : fb.length = B) (h2 : y.length = n) (h3 : n ≤ B) :
    (fb.drop n ++ y).length = B := by
  simp only [List.length_append, List.length_drop]
  omega

end Sys2Proof.Machine
end

