-- ==== Sys2Proof/Laws/Modes.lean ====
section
/-! SUPPORT. The reference functions block by block (spec 44_block_modes.md R188, 45_stream_modes.md R210). -/

namespace Sys2Proof.Machine

theorem blocksOf_nil (B : Nat) (hB : 0 < B) : blocksOf B [] = [] := by
  simp [blocksOf, ceilDiv_zero_left B hB]

/-- A non-empty sequence is its first block and the blocks of the rest (R61). -/
theorem blocksOf_cons (B : Nat) (hB : 0 < B) (s : Bytes) (hs : s ≠ []) :
    blocksOf B s = s.take B :: blocksOf B (s.drop B) := by
  have hL : 0 < s.length := List.length_pos_iff.mpr hs
  have hc : ceilDiv s.length B = ceilDiv (s.drop B).length B + 1 := by
    rw [List.length_drop, ceilDiv_sub _ _ hB hL]
    have := (ceilDiv_eq_zero_iff s.length B hB).not.mpr (by omega)
    omega
  unfold blocksOf
  rw [hc, List.range_succ_eq_map, List.map_cons, List.map_map]
  congr 1
  · simp
  · apply List.map_congr_left
    intro j _
    simp only [Function.comp_apply, List.drop_drop]
    congr 2
    simp only [Nat.succ_eq_add_one]
    ring

/-- Induction along the blocks of a sequence. -/
theorem blocks_induction {motive : Bytes → Prop} (B : Nat) (hB : 0 < B) (nil : motive [])
    (cons : ∀ s, s ≠ [] → motive (s.drop B) → motive s) (s : Bytes) : motive s := by
  induction h : s.length using Nat.strong_induction_on generalizing s with
  | _ n ih =>
    by_cases hs : s = []
    · exact hs ▸ nil
    · have hpos := List.length_pos_iff.mpr hs
      exact cons s hs (ih (s.drop B).length (by simp only [List.length_drop]; omega) _ rfl)

/-- A first full block. -/
theorem take_length_of_aligned (B : Nat) (s : Bytes) (hs : s ≠ []) (h : s.length % B = 0) :
    (s.take B).length = B := by
  have hpos := List.length_pos_iff.mpr hs
  have hle : B ≤ s.length := Nat.le_of_dvd hpos (Nat.dvd_of_mod_eq_zero h)
  simp [hle]

/-- What is left after a block of aligned data is aligned. -/
theorem drop_aligned (B : Nat) (s : Bytes) (h : s.length % B = 0) : (s.drop B).length % B = 0 := by
  rw [List.length_drop]
  rcases Nat.le_total B s.length with hle | hle
  · rwa [← Nat.mod_eq_sub_mod hle]
  · rw [Nat.sub_eq_zero_of_le hle, Nat.zero_mod]

/-- A first full block in front of anything. -/
theorem blocksOf_append (B : Nat) (hB : 0 < B) (y rest : Bytes) (hy : y.length = B) :
    blocksOf B (y ++ rest) = y :: blocksOf B rest := by
  have hne : y ++ rest ≠ [] := by
    intro h
    have := congrArg List.length h
    simp only [List.length_append, List.length_nil] at this
    omega
  rw [blocksOf_cons B hB _ hne, List.take_left' hy, List.drop_left' hy]

section BlockModes
variable (P : Params) (hB : 0 < P.B) (k : Bytes)
include hB

theorem cbcEncBlocks_length (s c : Bytes) (hc : c.length = P.B) (hs : s.length % P.B = 0) :
    (cbcEncBlocks P k c (blocksOf P.B s)).length = s.length := by
  induction s using blocks_induction P.B hB generalizing c with
  | nil => simp [blocksOf_nil P.B hB, cbcEncBlocks]
  | cons s hne ih =>
    have htake := take_length_of_aligned P.B s hne hs
    have hy : (P.enc k (xorBytes c (s.take P.B))).length = P.B := enc_length _ _ _ (by
      rw [xorBytes_length, htake, hc, Nat.min_self])
    rw [blocksOf_cons P.B hB s hne, cbcEncBlocks, List.length_append, ih _ hy (drop_aligned _ _ hs), hy,
      List.length_drop]
    rw [List.length_take] at htake
    omega

theorem cbcDecBlocks_length (s c : Bytes) (hc : c.length = P.B) (hs : s.length % P.B = 0) :
    (cbcDecBlocks P k c (blocksOf P.B s)).length = s.length := by
  induction s using blocks_induction P.B hB generalizing c with
  | nil => simp [blocksOf_nil P.B hB, cbcDecBlocks]
  | cons s hne ih =>
    have htake := take_length_of_aligned P.B s hne hs
    have hy := dec_length P k _ htake
    rw [blocksOf_cons P.B hB s hne, cbcDecBlocks, List.length_append, ih _ htake (drop_aligned _ _ hs),
      xorBytes_length, hy, hc, Nat.min_self, List.length_drop]
    rw [List.length_take] at htake
    omega

/-- A block mode that treats every block alone keeps the length. -/
theorem flatMap_blocks_length (f : Bytes → Bytes) (hf : ∀ x : Bytes, x.length = P.B → (f x).length = P.B) (s : Bytes)
    (hs : s.length % P.B = 0) : ((blocksOf P.B s).flatMap f).length = s.length := by
  induction s using blocks_induction P.B hB with
  | nil => simp [blocksOf_nil P.B hB]
  | cons s hne ih =>
    have htake := take_length_of_aligned P.B s hne hs
    rw [blocksOf_cons P.B hB s hne, List.flatMap_cons, List.length_append, ih (drop_aligned _ _ hs), hf _ htake,
      List.length_drop]
    rw [List.length_take] at htake
    omega

end BlockModes

section StreamModes
variable (P : Params) (hB : 0 < P.B) (k : Bytes)
include hB

/-- A register update that keeps the register's length. -/
def KeepsWidth (P : Params) (nextReg : Bytes → Bytes → Bytes → Bytes → Bytes) : Prop :=
  ∀ r ks x y : Bytes, r.length = P.B → ks.length = P.B → x.length ≤ P.B → y.length = x.length →
    (nextReg r ks x y).length = P.B

theorem streamBlocks_length (nextReg : Bytes → Bytes → Bytes → Bytes → Bytes) (hn : KeepsWidth P nextReg) (s r : Bytes)
    (hr : r.length = P.B) : (streamBlocks P k nextReg r (blocksOf P.B s)).length = s.length := by
  induction s using blocks_induction P.B hB generalizing r with
  | nil => simp [blocksOf_nil P.B hB, streamBlocks]
  | cons s hne ih =>
    have hk := enc_length P k r hr
    have hx : (s.take P.B).length ≤ P.B := List.length_take_le _ _
    have hy : (xorBytes (s.take P.B) (P.enc k r)).length = (s.take P.B).length := by
      rw [xorBytes_length]
      omega
    rw [blocksOf_cons P.B hB s hne, streamBlocks, List.length_append, ih _ (hn _ _ _ _ hr hk hx hy), hy,
      List.length_drop, List.length_take]
    omega

/-- The first block of a stream mode's output, and what is left of it. -/
theorem streamBlocks_split (nextReg : Bytes → Bytes → Bytes → Bytes → Bytes) (r s : Bytes) (hne : s ≠ [])
    (hr : r.length = P.B) :
    (streamBlocks P k nextReg r (blocksOf P.B s)).take P.B = xorBytes (s.take P.B) (P.enc k r) ∧
    (streamBlocks P k nextReg r (blocksOf P.B s)).drop P.B =
      streamBlocks P k nextReg (nextReg r (P.enc k r) (s.take P.B) (xorBytes (s.take P.B) (P.enc k r)))
        (blocksOf P.B (s.drop P.B)) := by
  have hk := enc_length P k r hr
  have hl : (xorBytes (s.take P.B) (P.enc k r)).length = min P.B s.length := by
    rw [xorBytes_length, List.length_take, hk]
    omega
  rw [blocksOf_cons P.B hB s hne, streamBlocks]
  rcases Nat.le_total P.B s.length with h | h
  · rw [Nat.min_eq_left h] at hl
    exact ⟨List.take_left' hl, List.drop_left' hl⟩
  · rw [List.drop_eq_nil_of_le h, blocksOf_nil _ hB, streamBlocks, List.append_nil]
    rw [Nat.min_eq_right h] at hl
    exact ⟨List.take_of_length_le (by omega), List.drop_eq_nil_of_le (by omega)⟩

end StreamModes

theorem keepsWidth_cfbEnc (P : Params) : KeepsWidth P fun r _ _ y => r.drop y.length ++ y := by
  intro r ks x y hr _ hx hy
  exact shiftIn_length P.B y.length r y hr rfl (by omega)

theorem keepsWidth_cfbDec (P : Params) : KeepsWidth P fun r _ x _ => r.drop x.length ++ x := by
  intro r ks x y hr _ hx _
  exact shiftIn_length P.B x.length r x hr rfl hx

theorem keepsWidth_ofb (P : Params) : KeepsWidth P fun _ ks _ _ => ks := fun _ _ _ _ _ h _ _ => h

theorem keepsWidth_ctr (P : Params) : KeepsWidth P fun r _ _ _ => incBe r := by
  intro r ks x y hr _ _ _
  rwa [incBe_length]

end Sys2Proof.Machine
end

