-- ==== Sys2Proof/Laws/Padding.lean ====
section
/-! SUPPORT. What the padding functions compute (spec 43_padding.md). -/

namespace Sys2Proof.Machine

theorem padLen_le (len bs : Nat) : padLen len bs ≤ bs := Nat.sub_le _ _

theorem padLen_pos (len bs : Nat) (h : 1 ≤ bs) : 1 ≤ padLen len bs := by
  have := Nat.mod_lt len (show bs > 0 by omega)
  unfold padLen
  omega

/-- The padded length is aligned (R161). -/
theorem add_padLen_mod (len bs : Nat) (h : 1 ≤ bs) : (len + padLen len bs) % bs = 0 := by
  have h1 := Nat.mod_lt len (show bs > 0 by omega)
  have h2 := Nat.mod_add_div len bs
  have : len + padLen len bs = bs * (len / bs + 1) := by
    unfold padLen
    rw [Nat.mul_add, Nat.mul_one]
    omega
  rw [this, Nat.mul_mod_right]

/-- The padding adds what R172 says, for every scheme but None. -/
theorem applyPad_length (bs : Nat) (data : Bytes) (p : PadScheme) (hp : p ≠ .identity) (h5 : p = .pkcs5 → bs = 8) :
    (applyPad bs data p).length = data.length + padLen data.length bs := by
  cases p with
  | identity => exact absurd rfl hp
  | zero => simp [applyPad, applyZero]
  | pkcs5 => simp [applyPad, applyPkcs5, applyPkcs7, h5 rfl]
  | pkcs7 => simp [applyPad, applyPkcs7]

/-- Law 1 of R172: what Zero, PKCS5 and PKCS7 padding gives is aligned and longer than the data. -/
theorem applyPad_aligned (bs : Nat) (data : Bytes) (p : PadScheme) (h : 1 ≤ bs) (hp : p ≠ .identity)
    (h5 : p = .pkcs5 → bs = 8) :
    (applyPad bs data p).length % bs = 0 ∧ data.length < (applyPad bs data p).length := by
  rw [applyPad_length bs data p hp h5]
  have := padLen_pos data.length bs h
  exact ⟨add_padLen_mod _ _ h, by omega⟩

/-- The padding adds at most one block. -/
theorem applyPad_length_le (bs : Nat) (data : Bytes) (p : PadScheme) (h5 : p = .pkcs5 → bs = 8) :
    (applyPad bs data p).length ≤ data.length + bs := by
  by_cases hp : p = .identity
  · subst hp
    simp [applyPad, applyNone]
  · rw [applyPad_length bs data p hp h5]
    have := padLen_le data.length bs
    omega

/-- The scan stops where it can (R165). -/
theorem zeroScan_le (data : Bytes) (i : Nat) : zeroScan data i ≤ i := by
  induction i with
  | zero => simp [zeroScan]
  | succ n ih =>
    unfold zeroScan
    split
    · omega
    · exact Nat.le_refl _

/-- Everything past the scan is zero (R165). -/
theorem zeroScan_zero_above (data : Bytes) (i j : Nat) (h1 : zeroScan data i ≤ j) (h2 : j < i) :
    data.getD j 0 = 0 := by
  induction i with
  | zero => omega
  | succ n ih =>
    unfold zeroScan at h1
    split at h1
    · rcases Nat.lt_or_ge j n with h | h
      · exact ih h1 h
      · rwa [show j = n by omega]
    · omega

/-- What stands before the end of the scan is no zero (R165). -/
theorem zeroScan_last (data : Bytes) (i n : Nat) (h : zeroScan data i = n + 1) : data.getD n 0 ≠ 0 := by
  induction i with
  | zero => simp [zeroScan] at h
  | succ k ih =>
    unfold zeroScan at h
    split at h
    · exact ih h
    · obtain rfl : k = n := by omega
      assumption

theorem removeZero_length (data : Bytes) : (removeZero data).length = zeroScan data data.length := by
  have := zeroScan_le data data.length
  simp [removeZero, this]

/-- Zero removal splits off trailing zero bytes (R165). -/
theorem removeZero_append (data : Bytes) :
    data = removeZero data ++ List.replicate (data.length - zeroScan data data.length) 0#8 := by
  have hle := zeroScan_le data data.length
  apply List.ext_getElem
  · simp [removeZero_length]
    omega
  · intro j h1 h2
    rcases Nat.lt_or_ge j (zeroScan data data.length) with h | h
    · rw [List.getElem_append_left (by rw [removeZero_length]; exact h)]
      simp [removeZero]
    · rw [List.getElem_append_right (by rw [removeZero_length]; exact h)]
      have := zeroScan_zero_above data data.length j h h1
      rw [List.getD_eq_getElem _ _ h1] at this
      simp [this]

/-- What Zero removal leaves does not end in zero (R165). -/
theorem removeZero_last (data : Bytes) : (removeZero data).getLast? ≠ some 0#8 := by
  intro h
  have hlen := removeZero_length data
  rw [List.getLast?_eq_getElem?] at h
  cases hz : zeroScan data data.length with
  | zero =>
    have : removeZero data = [] := List.eq_nil_of_length_eq_zero (by omega)
    simp [this] at h
  | succ n =>
    have hle := zeroScan_le data data.length
    have hne := zeroScan_last data data.length n hz
    have hn : n < data.length := by omega
    rw [hlen, hz, Nat.add_sub_cancel] at h
    rw [removeZero, hz, List.getElem?_take_of_lt (by omega), List.getElem?_eq_getElem hn] at h
    rw [List.getD_eq_getElem _ _ hn] at hne
    exact hne (by simpa using h)

/-- The last byte decides where the removal of trailing zeros ends: it is unique (R165). -/
theorem removeZero_unique (data r : Bytes) (n : Nat) (h : data = r ++ List.replicate n 0#8)
    (hr : r.getLast? ≠ some 0#8) : removeZero data = r := by
  have hz := removeZero_append data
  have hlast := removeZero_last data
  generalize removeZero data = z at hz hlast
  generalize data.length - zeroScan data data.length = k at hz
  have heq : r ++ List.replicate n 0#8 = z ++ List.replicate k 0#8 := by rw [← h, ← hz]
  clear h hz
  have hrev := congrArg List.reverse heq
  simp only [List.reverse_append, List.reverse_replicate] at hrev
  suffices hs : r.reverse = z.reverse by simpa using hs.symm
  rw [← List.head?_reverse] at hr hlast
  generalize r.reverse = a at *
  generalize z.reverse = b at *
  clear heq
  induction n generalizing k with
  | zero =>
    cases k with
    | zero => simpa using hrev
    | succ k =>
      simp only [List.replicate_zero, List.nil_append, List.replicate_succ, List.cons_append] at hrev
      exact absurd (by rw [hrev]; rfl) hr
  | succ n ih =>
    cases k with
    | zero =>
      simp only [List.replicate_zero, List.nil_append, List.replicate_succ, List.cons_append] at hrev
      exact absurd (by rw [← hrev]; rfl) hlast
    | succ k =>
      simp only [List.replicate_succ, List.cons_append, List.cons.injEq, true_and] at hrev
      exact ih k hrev

/-- PKCS7 removal of a valid last byte (R167). -/
theorem removePkcs7_valid (data : Bytes) (bs : Nat) (v : Byte) (hl : data.getLast? = some v) (h1 : 1 ≤ v.toNat)
    (h2 : v.toNat ≤ bs) (h3 : v.toNat ≤ data.length) :
    removePkcs7 data bs = some (data.take (data.length - v.toNat)) := by
  have hv : v ≠ 0 := by
    rintro rfl
    simp at h1
  unfold removePkcs7
  rw [hl]
  simp only
  rw [if_neg]
  rintro (h | h | h)
  · exact hv h
  · omega
  · omega

/-- PKCS7 removal of an invalid last byte (R167). -/
theorem removePkcs7_invalid (data : Bytes) (bs : Nat) (v : Byte) (hl : data.getLast? = some v)
    (h : v.toNat = 0 ∨ bs < v.toNat ∨ data.length < v.toNat) : removePkcs7 data bs = none := by
  unfold removePkcs7
  rw [hl]
  simp only
  rw [if_pos]
  rcases h with h | h | h
  · exact .inl (BitVec.eq_of_toNat_eq (by simpa using h))
  · exact .inr (.inl h)
  · exact .inr (.inr h)

theorem removePkcs7_nil (bs : Nat) : removePkcs7 [] bs = none := rfl

/-- PKCS7 removal never returns its input: it is strictly shorter (R172). -/
theorem removePkcs7_length_lt (data r : Bytes) (bs : Nat) (h : removePkcs7 data bs = some r) :
    r.length < data.length := by
  unfold removePkcs7 at h
  split at h
  · cases h
  · rename_i v hl
    split at h
    · cases h
    · rename_i hv
      push Not at hv
      obtain ⟨h0, -, h2⟩ := hv
      cases h
      have hpos : v.toNat ≠ 0 := fun hc => h0 (BitVec.eq_of_toNat_eq (by simpa using hc))
      simp only [List.length_take]
      omega

/-- PKCS7 removal undoes PKCS7 padding (R172). -/
theorem removePkcs7_applyPkcs7 (data : Bytes) (bs : Nat) (h1 : 1 ≤ bs) (h2 : bs ≤ 255) :
    removePkcs7 (applyPkcs7 data bs) bs = some data := by
  have hp := padLen_pos data.length bs h1
  have hle := padLen_le data.length bs
  have hn : (BitVec.ofNat 8 (padLen data.length bs)).toNat = padLen data.length bs := by
    rw [BitVec.toNat_ofNat, Nat.mod_eq_of_lt (by omega)]
  have hlen : (applyPkcs7 data bs).length = data.length + padLen data.length bs := by simp [applyPkcs7]
  have hlast : (applyPkcs7 data bs).getLast? = some (BitVec.ofNat 8 (padLen data.length bs)) := by
    unfold applyPkcs7 rep
    rw [List.getLast?_append, List.getLast?_replicate, if_neg (by omega)]
    rfl
  rw [removePkcs7_valid _ bs _ hlast (by omega) (by omega) (by omega), hlen, hn, Nat.add_sub_cancel]
  simp [applyPkcs7]

/-- Law 2 of R172: removal undoes padding for None, PKCS5 and PKCS7. -/
theorem removePad_applyPad (bs : Nat) (data : Bytes) (p : PadScheme) (h1 : 1 ≤ bs) (h2 : bs ≤ 255) (hp : p ≠ .zero)
    (h5 : p = .pkcs5 → bs = 8) : removePad bs (applyPad bs data p) p = some data := by
  cases p with
  | identity => rfl
  | zero => exact absurd rfl hp
  | pkcs5 =>
    simp only [removePad, applyPad, removePkcs5, applyPkcs5]
    exact removePkcs7_applyPkcs7 data 8 (by omega) (by omega)
  | pkcs7 => exact removePkcs7_applyPkcs7 data bs h1 h2

/-- Zero removal of Zero padding is Zero removal of the data. -/
theorem removeZero_applyZero (data : Bytes) (bs : Nat) : removeZero (applyZero data bs) = removeZero data := by
  apply removeZero_unique _ _ (data.length - zeroScan data data.length + padLen data.length bs)
  · conv_lhs => unfold applyZero; rw [removeZero_append data]
    rw [List.replicate_add, ← List.append_assoc, ← removeZero_append]
    rfl
  · exact removeZero_last data

/-- Law 3 of R172, its first half, by the dispatch of R169. -/
theorem removePad_applyPad_zero (bs : Nat) (data : Bytes) :
    removePad bs (applyPad bs data .zero) .zero = some (removeZero data) :=
  congrArg some (removeZero_applyZero data bs)

/-- Law 3 of R172, its second half: Zero removal loses nothing exactly when the data does not end in a zero byte. -/
theorem removeZero_eq_self_iff (data : Bytes) : removeZero data = data ↔ data.getLast? ≠ some 0#8 :=
  ⟨fun h => h ▸ removeZero_last data, fun h => removeZero_unique data data 0 (by simp) h⟩

/-- Law 4 of R172: PKCS5 and PKCS7 removal gives something strictly shorter, if it gives anything. -/
theorem removePad_length_lt (bs : Nat) (data r : Bytes) (p : PadScheme) (hp : p = .pkcs5 ∨ p = .pkcs7)
    (h : removePad bs data p = some r) : r.length < data.length := by
  rcases hp with rfl | rfl
  · exact removePkcs7_length_lt data r 8 h
  · exact removePkcs7_length_lt data r bs h

/-- No remover makes its input longer. -/
theorem removePad_length_le (bs : Nat) (data r : Bytes) (p : PadScheme) (h : removePad bs data p = some r) :
    r.length ≤ data.length := by
  cases p with
  | identity =>
    cases h
    exact Nat.le_refl _
  | zero =>
    cases h
    rw [removeZero_length]
    exact zeroScan_le _ _
  | pkcs5 => exact (removePkcs7_length_lt data r 8 h).le
  | pkcs7 => exact (removePkcs7_length_lt data r bs h).le

end Sys2Proof.Machine
end

