-- ==== Sys2Proof/Laws/Engine.lean ====
section
/-! SUPPORT. What each engine step does, as an equation under the conditions the invariant gives
(spec 10_state.md R40, 43_padding.md R170, R171, 44_block_modes.md, 45_stream_modes.md). -/

namespace Sys2Proof.Machine

section Dispatch
variable {P : Params} {m : Mpe}

theorem engineStep_idle_iff : engineStep P m = .idle ↔ m.phase = .build ∨ m.phase = .ready := by
  unfold engineStep
  cases h : m.phase with
  | build => simp
  | ready => simp
  | pad =>
    simp only [reduceCtorEq, or_self, iff_false]
    unfold padStep
    split <;> simp
  | unpad =>
    simp only [reduceCtorEq, or_self, iff_false]
    unfold unpadStep
    split
    · simp
    · split <;> simp
  | run =>
    simp only [reduceCtorEq, or_self, iff_false]
    split
    · unfold blockStep
      split
      · simp
      · split
        · rename_i md _
          cases md <;> cases m.dir <;>
            simp only [modeStep, cbcEncStep, cbcDecStep, ecbEncStep, ecbDecStep, cfbEncStep, cfbDecStep, ofbStep,
              ctrStep, streamStep, callE, callD] <;>
            split <;> simp
        · simp
    · unfold endOfRunStep
      split <;> simp

theorem engineStep_pad (h : m.phase = .pad) : engineStep P m = padStep P m := by
  simp [engineStep, h]

theorem engineStep_unpad (h : m.phase = .unpad) : engineStep P m = unpadStep P m := by
  simp [engineStep, h]

theorem engineStep_block (h : m.phase = .run) (hb : m.blk < m.nblk) : engineStep P m = blockStep P m := by
  simp [engineStep, h, hb]

theorem engineStep_end (h : m.phase = .run) (hb : ¬m.blk < m.nblk) : engineStep P m = endOfRunStep m := by
  simp [engineStep, h, hb]

end Dispatch

section Blocks
variable {P : Params} {m : Mpe} (hfb : m.fb.length = P.B)
include hfb

/-- A block step of a named mode: `FB` is as wide as R21 says, so the mode's step is taken. -/
theorem blockStep_of_mode (md : Mode) (hmode : m.mode = modeCode md) : blockStep P m = modeStep P md m.dir m := by
  unfold blockStep
  rw [if_neg (by simpa using hfb), hmode, modeOf_modeCode]

/-- In RUN with blocks left, the engine step is the mode's block step (R40). -/
theorem engineStep_mode (md : Mode) {d : Dir} (hp : m.phase = .run) (hb : m.blk < m.nblk) (hmode : m.mode = modeCode md)
    (hd : m.dir = d) : engineStep P m = modeStep P md d m := by
  rw [engineStep_block hp hb, blockStep_of_mode hfb md hmode, hd]

theorem cbcEncStep_ok (hin : P.B ≤ m.inp.length) :
    cbcEncStep P m =
      .stepped
        { emitBlock P.B (P.enc m.key (xorBytes m.fb (m.inp.take P.B))) m with
          fb := P.enc m.key (xorBytes m.fb (m.inp.take P.B)) }
        [⟨.E, xorBytes m.fb (m.inp.take P.B)⟩] := by
  have hlen : (xorBytes m.fb (m.inp.take P.B)).length = P.B := by
    rw [xorBytes_length, List.length_take, hfb]
    omega
  simp only [cbcEncStep, callE_ok P m.key _ _ hlen]

omit hfb in
theorem cbcDecStep_ok (hin : P.B ≤ m.inp.length) :
    cbcDecStep P m =
      .stepped
        { emitBlock P.B (xorBytes (P.dec m.key (m.inp.take P.B)) m.fb) m with fb := m.inp.take P.B }
        [⟨.D, m.inp.take P.B⟩] := by
  have hlen : (m.inp.take P.B).length = P.B := by simp [hin]
  simp only [cbcDecStep, callD_ok P m.key _ _ hlen]

omit hfb in
theorem ecbEncStep_ok (hin : P.B ≤ m.inp.length) :
    ecbEncStep P m =
      .stepped (emitBlock P.B (P.enc m.key (m.inp.take P.B)) m) [⟨.E, m.inp.take P.B⟩] := by
  have hlen : (m.inp.take P.B).length = P.B := by simp [hin]
  simp only [ecbEncStep, callE_ok P m.key _ _ hlen]

omit hfb in
theorem ecbDecStep_ok (hin : P.B ≤ m.inp.length) :
    ecbDecStep P m =
      .stepped (emitBlock P.B (P.dec m.key (m.inp.take P.B)) m) [⟨.D, m.inp.take P.B⟩] := by
  have hlen : (m.inp.take P.B).length = P.B := by simp [hin]
  simp only [ecbDecStep, callD_ok P m.key _ _ hlen]

end Blocks

end Sys2Proof.Machine
end

