-- ==== Sys2Proof/Laws/Frame.lean ====
section
/-! SUPPORT. What commands and engine steps leave alone, and what a command can answer. -/

namespace Sys2Proof.Machine

/-! ### Commands -/

/-- A command is refused with nothing written, or answers with the NAK bit clear (R81, R83). -/
theorem cmdOf_answer (P : Params) (i : Instr) (m : Mpe) :
    (∃ r, cmdOf P i m = (m, nakWord r)) ∨ ∃ m' p, cmdOf P i m = (m', ackWord p) := by
  have hg : ∀ c acc, ((∃ r, acc = (m, nakWord r)) ∨ ∃ m' p, acc = (m', ackWord p)) →
      (∃ r, gated c m acc = (m, nakWord r)) ∨ ∃ m' p, gated c m acc = (m', ackWord p) := by
    intro c acc h
    rcases gated_cases c m acc with ⟨r, _, h1⟩ | ⟨_, h1⟩ <;> rw [h1]
    · exact .inl ⟨r, rfl⟩
    · exact h
  have hs : ∀ d, ∃ m' p, start P d m = (m', ackWord p) := by
    intro d
    rcases start_cases P d m with ⟨e, _, h⟩ | ⟨_, _, _, h⟩ | ⟨_, _, h⟩ <;> exact ⟨_, _, h⟩
  cases i
  all_goals first | apply hg | exact .inr ⟨_, _, rfl⟩
  case pushkey => split <;> first | exact .inr ⟨_, _, rfl⟩ | exact .inl ⟨_, rfl⟩
  case pushiv => split <;> first | exact .inr ⟨_, _, rfl⟩ | exact .inl ⟨_, rfl⟩
  case pushd => split <;> first | exact .inr ⟨_, _, rfl⟩ | exact .inl ⟨_, rfl⟩
  case popd => split <;> first | exact .inr ⟨_, _, rfl⟩ | exact .inl ⟨_, rfl⟩
  case enc => exact .inr (hs _)
  case dec => exact .inr (hs _)
  all_goals exact .inr ⟨_, _, rfl⟩

/-- Two MPEs hold the same configuration, sealed (R108). -/
structure SameConfig (m m' : Mpe) : Prop where
  mode : m'.mode = m.mode
  pad : m'.pad = m.pad
  key : m'.key = m.key
  iv : m'.iv = m.iv
  sealed : m'.phase ≠ .build

theorem start_sameConfig (P : Params) (d : Dir) (m : Mpe) : SameConfig m (start P d m).1 := by
  rcases start_cases P d m with ⟨e, _, h⟩ | ⟨_, _, _, h⟩ | ⟨_, _, h⟩ <;> rw [h] <;>
    exact ⟨rfl, rfl, rfl, rfl, by simp⟩

/-- Outside BUILD only CLEAR writes the configuration (R108). -/
theorem cmdOf_sameConfig (P : Params) (i : Instr) (m : Mpe) (hp : m.phase ≠ .build) (hi : i ≠ .clear) :
    SameConfig m (cmdOf P i m).1 := by
  have hsame : SameConfig m m := ⟨rfl, rfl, rfl, rfl, hp⟩
  have hc : ∀ acc, (gated .config m acc).1 = m := by
    intro acc
    rcases gated_cases .config m acc with ⟨r, _, h⟩ | ⟨h, _⟩
    · rw [h]
    · exact absurd ((phaseCheck_config _).mp h) hp
  have hg : ∀ acc : Mpe × Word, SameConfig m acc.1 → SameConfig m (gated .data m acc).1 := by
    intro acc h
    rcases gated_cases .data m acc with ⟨r, _, h1⟩ | ⟨_, h1⟩ <;> rw [h1]
    · exact hsame
    · exact h
  cases i
  case clear => exact absurd rfl hi
  case setmode => exact (hc _).symm ▸ hsame
  case setpad => exact (hc _).symm ▸ hsame
  case pushkey => exact (hc _).symm ▸ hsame
  case pushiv => exact (hc _).symm ▸ hsame
  case lock => exact (hc _).symm ▸ hsame
  case pushd => exact hg _ (by split <;> exact ⟨rfl, rfl, rfl, rfl, hp⟩)
  case clrd => exact hg _ ⟨rfl, rfl, rfl, rfl, hp⟩
  case enc => exact hg _ (start_sameConfig _ _ _)
  case dec => exact hg _ (start_sameConfig _ _ _)
  case popd => exact hg _ (by split <;> exact ⟨rfl, rfl, rfl, rfl, hp⟩)
  all_goals exact hsame

/-- While the engine is busy no command writes the MPE (R64, R92). -/
theorem cmdOf_busy {P : Params} {m : Mpe} (i : Instr) (hb : busy m.phase = true) : (cmdOf P i m).1 = m := by
  have hg : ∀ c acc, c ≠ .always → (gated c m acc).1 = m := by
    intro c acc hc
    unfold gated
    cases hp : m.phase <;> cases c <;> simp_all [busy, phaseCheck]
  cases i
  all_goals first | rfl | exact hg _ _ (by simp)

/-- NOP and the reads never write the MPE (R64, R67). -/
theorem cmdOf_observer (P : Params) (i : Instr) (m : Mpe) (h : isObserver i = true) : (cmdOf P i m).1 = m := by
  cases i <;> first | rfl | cases h

/-! ### Engine steps -/

/-- What no engine step writes, and where it cannot lead. -/
structure EngineFrame (m m' : Mpe) : Prop where
  mode : m'.mode = m.mode
  pad : m'.pad = m.pad
  key : m'.key = m.key
  iv : m'.iv = m.iv
  dir : m'.dir = m.dir
  phase : m'.phase ≠ .build

/-- The frame of every engine step (R40). -/
theorem engineStep_frame {P : Params} {m m' : Mpe} {calls : List AdapterCall}
    (h : engineStep P m = .stepped m' calls) : EngineFrame m m' := by
  have hph : m.phase ≠ .build := by
    intro hb
    rw [engineStep_idle_iff.mpr (.inl hb)] at h
    cases h
  unfold engineStep at h
  split at h
  · cases h
  · cases h
  · unfold padStep at h
    split at h
    · cases h
    · cases h
      exact ⟨rfl, rfl, rfl, rfl, rfl, by simp⟩
  · split at h
    · unfold blockStep at h
      split at h
      · cases h
      · split at h
        · rename_i md _
          cases md <;> cases hd : m.dir <;>
            simp only [hd, modeStep, cbcEncStep, cbcDecStep, ecbEncStep, ecbDecStep, cfbEncStep, cfbDecStep, ofbStep,
              ctrStep, streamStep] at h <;>
            first
            | (cases (callE_stepped h).2; exact ⟨rfl, rfl, rfl, rfl, rfl, hph⟩)
            | (cases (callD_stepped h).2; exact ⟨rfl, rfl, rfl, rfl, rfl, hph⟩)
        · cases h
    · unfold endOfRunStep at h
      split at h <;> cases h <;> exact ⟨rfl, rfl, rfl, rfl, rfl, by simp⟩
  · unfold unpadStep at h
    split at h
    · cases h
    · split at h <;> cases h <;> exact ⟨rfl, rfl, rfl, rfl, rfl, by simp⟩

end Sys2Proof.Machine
end

