-- ==== Sys2Proof/Laws/Invariant.lean ====
section
/-! SUPPORT. The invariant of Safety.lean (spec 10_state.md R38): what it gives an engine step, and that every command and
every engine step keeps it. -/

namespace Sys2Proof.Machine

/-! ### The block counters -/

theorem blk_lt_toNat {a b : BitVec 24} (h : a < b) : a.toNat < b.toNat := BitVec.lt_def.mp h

/-- `BLK` counts up without wrapping while blocks are left (R33). -/
theorem blk_add_one_toNat {a b : BitVec 24} (h : a < b) : (a + 1).toNat = a.toNat + 1 := by
  have h1 := blk_lt_toNat h
  have := b.isLt
  rw [BitVec.toNat_add]
  simp
  omega

/-- A count of blocks of buffered bytes fits its register (R33, R34). -/
theorem ceilDiv_bound {P : Params} (hV : P.Valid) {n : Nat} (h : n ≤ P.nmax + P.B) : ceilDiv n P.B < 2 ^ 24 := by
  have := ceilDiv_le n P.B (valid_pos hV)
  have h1 := hV.1
  have h2 := hV.2.1
  have h3 := hV.2.2
  omega

/-! ### The shape of the engine steps -/

/-- In a block mode a whole block is there while blocks are left (R180). -/
theorem run_in_block {P : Params} {m : Mpe} (hI : m.Inv P) (hp : m.phase = .run) (hb : m.blk < m.nblk)
    (hm : inBlockMode m) : P.B ≤ m.inp.length := by
  rw [hI.run_block hp hm]
  have := blk_lt_toNat hb
  calc P.B = 1 * P.B := (Nat.one_mul _).symm
    _ ≤ _ := Nat.mul_le_mul_right _ (by omega)

/-- All a RUN block step does to the registers, whatever the mode (R180, R183, R200, R203): the block leaves `IN`, as many
bytes go to `OUT`, the registers keep their width, and one adapter call is made on a whole block. -/
def BlockShape (P : Params) (m : Mpe) (r : EngineResult) : Prop :=
  ∃ (y f ks' : Bytes) (c : AdapterCall),
    r = .stepped { emitBlock (min P.B m.inp.length) y m with fb := f, ks := ks' } [c] ∧
    y.length = min P.B m.inp.length ∧ f.length = P.B ∧ ks'.length = P.B ∧ c.block.length = P.B ∧
    (c.op = .D ↔ m.dir = .decrypt ∧ inBlockMode m) ∧ (inStreamMode m → c.block = m.fb)

/-- In a state of the invariant, a RUN step with blocks left is a block step. -/
theorem block_shape {P : Params} {m : Mpe} (hI : m.Inv P) (hp : m.phase = .run) (hb : m.blk < m.nblk) :
    BlockShape P m (engineStep P m) := by
  have hc := hI.busy_config (by rw [hp]; rfl)
  have hf := hI.fb_len
  have hk := enc_length P m.key m.fb hf
  have hx : (m.inp.take (min P.B m.inp.length)).length = min P.B m.inp.length := by simp
  have hxy : (xorBytes (m.inp.take (min P.B m.inp.length)) (P.enc m.key m.fb)).length = min P.B m.inp.length := by
    rw [xorBytes_length, hx, hk]
    omega
  have stream : ∀ md next, blockMode md = false → m.mode = modeCode md →
      modeStep P md m.dir m = streamStep P next m → KeepsWidth P next → BlockShape P m (engineStep P m) := by
    intro md next hmd hmode hst hw
    have hnb : ¬ inBlockMode m := by rw [inBlockMode, hmode]; cases md <;> simp_all [blockMode, modeCode]
    refine ⟨_, _, _, _, (engineStep_mode hf md hp hb hmode rfl).trans (hst.trans (streamStep_ok P next m hf)), hxy,
      hw _ _ _ _ hf hk (by omega) (by omega), hk, hf, ?_, fun _ => rfl⟩
    simp [hnb]
  have hmode : m.mode = 1 ∨ m.mode = 2 ∨ m.mode = 3 ∨ m.mode = 4 ∨ m.mode = 5 := by
    rcases hc.mode_named with (h | h) | (h | h | h) <;> simp [h]
  rcases hmode with h | h | h | h | h
  · have hbm : inBlockMode m := .inl h
    have hle := run_in_block hI hp hb hbm
    have hmin : min P.B m.inp.length = P.B := by omega
    have hns : ¬ inStreamMode m := by rw [inStreamMode, h]; decide
    unfold BlockShape
    rw [hmin] at hx ⊢
    have hx' : (xorBytes m.fb (m.inp.take P.B)).length = P.B := by rw [xorBytes_length, hx, hf, Nat.min_self]
    cases hd : m.dir with
    | encrypt =>
      refine ⟨_, _, m.ks, _, (engineStep_mode hf .cbc hp hb h hd).trans (cbcEncStep_ok hf hle),
        enc_length P _ _ hx', enc_length P _ _ hx', hI.ks_len, hx', by simp, fun h => absurd h hns⟩
    | decrypt =>
      refine ⟨_, _, m.ks, _, (engineStep_mode hf .cbc hp hb h hd).trans (cbcDecStep_ok hle),
        ?_, hx, hI.ks_len, hx, by simp [hbm], fun h => absurd h hns⟩
      rw [xorBytes_length, dec_length P _ _ hx, hf]; omega
  · have hbm : inBlockMode m := .inr h
    have hle := run_in_block hI hp hb hbm
    have hmin : min P.B m.inp.length = P.B := by omega
    have hns : ¬ inStreamMode m := by rw [inStreamMode, h]; decide
    unfold BlockShape
    rw [hmin] at hx ⊢
    cases hd : m.dir with
    | encrypt =>
      refine ⟨_, m.fb, m.ks, _, (engineStep_mode hf .ecb hp hb h hd).trans (ecbEncStep_ok hle),
        enc_length P _ _ hx, hf, hI.ks_len, hx, by simp, fun h => absurd h hns⟩
    | decrypt =>
      refine ⟨_, m.fb, m.ks, _, (engineStep_mode hf .ecb hp hb h hd).trans (ecbDecStep_ok hle),
        dec_length P _ _ hx, hf, hI.ks_len, hx, by simp [hbm], fun h => absurd h hns⟩
  · cases hd : m.dir
    · exact stream .cfb cfbEncNext rfl h (by rw [hd]; rfl) fun r _ x y hr _ hx hy =>
        shiftIn_length P.B x.length r y hr hy hx
    · exact stream .cfb cfbDecNext rfl h (by rw [hd]; rfl) fun r _ x _ hr _ hx _ =>
        shiftIn_length P.B x.length r x hr rfl hx
  · exact stream .ofb ofbNext rfl h rfl (keepsWidth_ofb P)
  · exact stream .ctr ctrNext rfl h rfl (keepsWidth_ctr P)

/-- A good configuration is one of the four configuration registers alone. -/
theorem good_of_eq {P : Params} {m m' : Mpe} (h : GoodConfig P m) (h1 : m'.mode = m.mode) (h2 : m'.pad = m.pad)
    (h3 : m'.key = m.key) (h4 : m'.iv = m.iv) : GoodConfig P m' := by
  obtain ⟨a, b, c, d, e⟩ := h
  constructor <;> simp only [inBlockMode, inStreamMode, h1, h2, h3, h4] at * <;> assumption

/-- A block step keeps the invariant. -/
theorem inv_block {P : Params} {m : Mpe} (hV : P.Valid) (hI : m.Inv P) (hp : m.phase = .run) (hb : m.blk < m.nblk)
    (y f ks' : Bytes) (hy : y.length = min P.B m.inp.length) (hf : f.length = P.B) (hk : ks'.length = P.B) :
    ({ emitBlock (min P.B m.inp.length) y m with fb := f, ks := ks' } : Mpe).Inv P := by
  have hblk := blk_add_one_toNat hb
  have hlt := blk_lt_toNat hb
  have htot := hI.run_total hp
  have hbusy : busy m.phase = true := by rw [hp]; rfl
  have hne : ∀ {q : Phase}, q ≠ .run → m.phase ≠ q := fun h h' => h (h' ▸ hp)
  constructor
  case fb_len => exact hf
  case ks_len => exact hk
  case key_len => exact hI.key_len
  case iv_len => exact hI.iv_len
  case in_len => simp; omega
  case out_len => simp; omega
  case run_count => intro _; rw [BitVec.le_def]; simp only [emitBlock_blk, emitBlock_nblk, hblk]; omega
  case build_clean => intro h; exact absurd h (hne (by simp))
  case busy_clean => intro _; exact hI.busy_clean hbusy
  case busy_config => intro _; exact good_of_eq (hI.busy_config hbusy) rfl rfl rfl rfl
  case pad_block => intro h; exact absurd h (hne (by simp))
  case unpad_block => intro h; exact absurd h (hne (by simp))
  case run_block =>
    intro _ hm
    have h1 := hI.run_block hp hm
    have hle := run_in_block hI hp hb hm
    simp only [emitBlock_inp, emitBlock_nblk, emitBlock_blk, hblk, List.length_drop, h1]
    rw [h1] at hle
    rw [Nat.min_eq_left hle, ← Nat.sub_sub, Nat.sub_mul _ 1, Nat.one_mul]
  case run_stream =>
    intro _ hm
    have h1 := hI.run_stream hp hm
    simp only [emitBlock_inp, emitBlock_nblk, emitBlock_blk, hblk, List.length_drop]
    have hpos : 0 < m.inp.length := by
      by_contra hz
      rw [show m.inp.length = 0 by omega, ceilDiv_zero_left _ (valid_pos hV)] at h1; omega
    have : m.inp.length - min P.B m.inp.length = m.inp.length - P.B := by omega
    rw [this, ceilDiv_sub _ _ (valid_pos hV) hpos, h1]; omega
  case done_ready => intro h; have := hI.done_ready h; exact absurd this.1 (hne (by simp))
  case err_ready => intro h; have := hI.err_ready h; exact absurd this.1 (hne (by simp))
  case in_cap => rintro (h | h) <;> exact absurd h (hne (by simp))
  case pad_aligned => intro h; exact absurd h (hne (by simp))
  case pad_fresh => intro h; exact absurd h (hne (by simp))
  case run_total => intro _; simp; omega
  case run_out =>
    intro _ hm
    have h1 := hI.run_out hp hm
    have hle := run_in_block hI hp hb hm
    simp only [emitBlock_out, emitBlock_blk, hblk, List.length_append, hy, h1, Nat.min_eq_left hle, Nat.succ_mul]
  case unpad_out => intro h; exact absurd h (hne (by simp))
  case err_no_output => intro h; have := hI.err_ready h; exact absurd this.1 (hne (by simp))

/-- Error entry reaches the invariant (R238). -/
theorem inv_fail {P : Params} {m : Mpe} (e : ErrorKind) (h1 : m.key.length ≤ keyCap) (h2 : m.iv.length ≤ ivCap) :
    (fail P e m).Inv P := by
  constructor <;> simp [busy, h1, h2]

/-- The scheme of a good configuration. -/
theorem scheme_of_good {P : Params} {m : Mpe} (h : GoodConfig P m) :
    ∃ sch, schemeOf m.pad = some sch ∧ m.pad = schemeCode sch ∧ (sch = .pkcs5 → P.B = 8) := by
  obtain ⟨sch, hs⟩ : ∃ sch, schemeOf m.pad = some sch := by
    rcases h.pad_named with h | h | h | h <;> rw [h] <;> exact ⟨_, rfl⟩
  have hcode := (schemeOf_eq_some _ _).mp hs
  refine ⟨sch, hs, hcode, fun h5 => h.pkcs5_block.resolve_left (by rw [hcode, h5]; simp [schemeCode])⟩

/-- What the PAD step does in a state of the invariant (R170): whole blocks result, and they fit. -/
theorem pad_shape {P : Params} {m : Mpe} (hV : P.Valid) (hI : m.Inv P) (hp : m.phase = .pad) :
    ∃ sch, schemeOf m.pad = some sch ∧ (sch = .pkcs5 → P.B = 8) ∧ m.pad = schemeCode sch ∧
      engineStep P m =
        .stepped
          { m with
            inp := applyPad P.B m.inp sch
            nblk := count24 (ceilDiv (applyPad P.B m.inp sch).length P.B)
            phase := .run }
          [] ∧
      (applyPad P.B m.inp sch).length % P.B = 0 ∧ (applyPad P.B m.inp sch).length ≤ P.nmax + P.B := by
  obtain ⟨sch, hs, hcode, h5⟩ := scheme_of_good (hI.busy_config (by rw [hp]; rfl))
  refine ⟨sch, hs, h5, hcode, by rw [engineStep_pad hp, padStep, hs], ?_, ?_⟩
  · by_cases hi : sch = .identity
    · subst hi
      exact hI.pad_aligned hp hcode
    · rw [applyPad_length _ _ _ hi h5]
      exact add_padLen_mod _ _ (valid_pos hV)
  · have := applyPad_length_le P.B m.inp sch h5
    have := hI.in_cap (.inr hp)
    omega

/-- Every engine step keeps the invariant. -/
theorem inv_engine {P : Params} {m m' : Mpe} {calls : List AdapterCall} (hV : P.Valid) (hI : m.Inv P)
    (h : engineStep P m = .stepped m' calls) : m'.Inv P := by
  have hph : m.phase ≠ .build ∧ m.phase ≠ .ready := by
    constructor <;> intro hb
    · rw [engineStep_idle_iff.mpr (.inl hb)] at h; cases h
    · rw [engineStep_idle_iff.mpr (.inr hb)] at h; cases h
  have hB := valid_pos hV
  cases hp : m.phase with
  | build => exact absurd hp hph.1
  | ready => exact absurd hp hph.2
  | pad =>
    obtain ⟨sch, hs, h5, hcode, he, hal, hle⟩ := pad_shape hV hI hp
    rw [h] at he; cases he
    have hfr := hI.pad_fresh hp
    have hbusy : busy m.phase = true := by rw [hp]; rfl
    have hcd : (count24 (ceilDiv (applyPad P.B m.inp sch).length P.B)).toNat = (applyPad P.B m.inp sch).length / P.B := by
      rw [count24_toNat _ (ceilDiv_bound hV hle), ceilDiv_of_mod_eq_zero _ _ hB hal]
    have hpb := hI.pad_block hp
    constructor
    case fb_len => exact hI.fb_len
    case ks_len => exact hI.ks_len
    case key_len => exact hI.key_len
    case iv_len => exact hI.iv_len
    case in_len => exact hle
    case out_len => rw [hfr.1]; simp
    case run_count => intro _; rw [BitVec.le_def]; simp only [hfr.2]; simp
    case build_clean => intro h; cases h
    case busy_clean => intro _; exact hI.busy_clean hbusy
    case busy_config => intro _; exact good_of_eq (hI.busy_config hbusy) rfl rfl rfl rfl
    case pad_block => intro h; cases h
    case unpad_block => intro h; cases h
    case run_block =>
      intro _ _
      simp only [hcd, hfr.2]
      exact (Nat.div_mul_cancel (Nat.dvd_of_mod_eq_zero hal)).symm
    case run_stream =>
      intro _ hm
      have hns : ¬ inStreamMode m := by rcases hpb.2 with h | h <;> rw [inStreamMode, h] <;> decide
      exact absurd hm hns
    case done_ready => intro h; have := (hI.done_ready h).1; rw [hp] at this; cases this
    case err_ready => intro h; have := (hI.err_ready h).1; rw [hp] at this; cases this
    case in_cap => rintro (h | h) <;> cases h
    case pad_aligned => intro h; cases h
    case pad_fresh => intro h; cases h
    case run_total => intro _; simp only [hfr.1]; simpa using hle
    case run_out => intro _ _; simp [hfr]
    case unpad_out => intro h; cases h
    case err_no_output => intro _; exact hfr.1
  | run =>
    by_cases hb : m.blk < m.nblk
    · obtain ⟨y, f, ks', c, he, h1, h2, h3, _⟩ := block_shape hI hp hb
      rw [h] at he; cases he
      exact inv_block hV hI hp hb y f ks' h1 h2 h3
    · have hbusy : busy m.phase = true := by rw [hp]; rfl
      have hcount : m.nblk.toNat - m.blk.toNat = 0 := by
        have := hI.run_count hp
        rw [BitVec.le_def] at this
        rw [BitVec.lt_def] at hb; omega
      have hin : m.inp = [] := by
        rcases (hI.busy_config hbusy).mode_named with hm | hm
        · have := hI.run_block hp hm
          rw [hcount, Nat.zero_mul] at this
          exact List.length_eq_zero_iff.mp this
        · have := hI.run_stream hp hm
          rw [hcount, ceilDiv_eq_zero_iff _ _ hB] at this
          exact List.length_eq_zero_iff.mp this
      rw [engineStep_end hp hb] at h
      unfold endOfRunStep at h
      have hbc := hI.busy_clean hbusy
      have hout := hI.out_len
      split at h <;> cases h
      · rename_i hd
        constructor
        case fb_len => exact hI.fb_len
        case ks_len => exact hI.ks_len
        case key_len => exact hI.key_len
        case iv_len => exact hI.iv_len
        case in_len => exact hI.in_len
        case out_len => exact hout
        case run_count => intro h; cases h
        case build_clean => intro h; cases h
        case busy_clean => intro _; exact hbc
        case busy_config => intro _; exact good_of_eq (hI.busy_config hbusy) rfl rfl rfl rfl
        case pad_block => intro h; cases h
        case unpad_block => intro _; exact ⟨hd.1, hd.2, hin⟩
        case run_block => intro h; cases h
        case run_stream => intro h; cases h
        case done_ready => intro h; simp only [hbc.1] at h; cases h
        case err_ready => intro h; exact absurd hbc.2 h
        case in_cap => rintro (h | h) <;> cases h
        case pad_aligned => intro h; cases h
        case pad_fresh => intro h; cases h
        case run_total => intro h; cases h
        case run_out => intro h; cases h
        case unpad_out => intro _; simp only [hI.run_out hp hd.2]; simp
        case err_no_output => intro h; exact absurd hbc.2 h
      · constructor <;> simp_all [hI.fb_len, hI.ks_len, hI.key_len, hI.iv_len, busy, hbc.1, hbc.2]
  | unpad =>
    have hbusy : busy m.phase = true := by rw [hp]; rfl
    have hbc := hI.busy_clean hbusy
    have hub := hI.unpad_block hp
    have hout := hI.out_len
    rw [engineStep_unpad hp] at h
    unfold unpadStep at h
    split at h
    · cases h
    · split at h
      · cases h; exact inv_fail _ hI.key_len hI.iv_len
      · rename_i r hr
        cases h
        have hl := removePad_length_le _ _ _ _ hr
        have hr' : r.length ≤ P.nmax + P.B := by omega
        constructor <;> simp_all [hI.fb_len, hI.ks_len, hI.key_len, hI.iv_len, busy]

/-! ### Commands -/

theorem inv_reset (P : Params) : (Mpe.reset P).Inv P := by
  constructor <;> simp [busy]

/-- Start keeps the invariant, whatever validation finds (R144). -/
theorem inv_start {P : Params} {m : Mpe} (hV : P.Valid) (d : Dir) (hI : m.Inv P) (hp : m.phase = .ready) :
    (start P d m).1.Inv P := by
  have hB := valid_pos hV
  have hin := hI.in_cap (.inl hp)
  rcases start_cases P d m with ⟨e, h1, h⟩ | ⟨h1, h2, h3, h⟩ | ⟨h1, h2, h⟩ <;> rw [h]
  · exact inv_fail _ hI.key_len hI.iv_len
  · obtain ⟨hg, ha⟩ := (startError_eq_none P d m).mp h1
    have hfb : (if m.mode = 2 then rep P.B 0 else m.iv).length = P.B := by
      split
      · simp
      · exact hg.iv_len.resolve_left ‹_›
    constructor
    case fb_len => exact hfb
    case ks_len => exact rep_length _ _
    case key_len => exact hI.key_len
    case iv_len => exact hI.iv_len
    case in_len => exact hI.in_len
    case out_len => simp
    case busy_config => intro _; exact good_of_eq hg rfl rfl rfl rfl
    case pad_block => intro _; exact ⟨h2, h3⟩
    case pad_aligned => intro _ hpad; exact ha h3 (.inr hpad)
    case pad_fresh => intro _; exact ⟨rfl, rfl⟩
    case in_cap => intro _; exact hin
    all_goals simp
  · obtain ⟨hg, ha⟩ := (startError_eq_none P d m).mp h1
    have hfb : (if m.mode = 2 then rep P.B 0 else m.iv).length = P.B := by
      split
      · simp
      · exact hg.iv_len.resolve_left ‹_›
    have hn : (count24 (ceilDiv m.inp.length P.B)).toNat = ceilDiv m.inp.length P.B :=
      count24_toNat _ (ceilDiv_bound hV (by omega))
    constructor
    case fb_len => exact hfb
    case ks_len => exact rep_length _ _
    case key_len => exact hI.key_len
    case iv_len => exact hI.iv_len
    case in_len => exact hI.in_len
    case out_len => simp
    case busy_config => intro _; exact good_of_eq hg rfl rfl rfl rfl
    case run_count => intro _; rw [BitVec.le_def]; simp
    case run_block =>
      intro _ hm
      have hd : d = .decrypt := by
        cases d
        · exact absurd ⟨rfl, hm⟩ h2
        · rfl
      have := ha hm (.inl hd)
      simp only [hn, startClear_blk, startClear_inp]
      rw [ceilDiv_of_mod_eq_zero _ _ hB this]
      exact (Nat.div_mul_cancel (Nat.dvd_of_mod_eq_zero this)).symm
    case run_stream => intro _ _; simp only [hn, startClear_blk, startClear_inp]; rfl
    case run_total => intro _; simp; omega
    case run_out => intro _ _; simp
    all_goals simp

/-- What the invariant asks of a state in READY. -/
theorem inv_of_ready {P : Params} {m : Mpe} (hp : m.phase = .ready) (h1 : m.fb.length = P.B) (h2 : m.ks.length = P.B)
    (h3 : m.key.length ≤ keyCap) (h4 : m.iv.length ≤ ivCap) (h5 : m.inp.length ≤ P.nmax)
    (h6 : m.out.length ≤ P.nmax + P.B) (h7 : m.done = true → m.err = none)
    (h8 : m.err ≠ none → m.done = false ∧ m.out = []) : m.Inv P := by
  have ne : ∀ {q : Phase} {R : Prop}, q ≠ .ready → m.phase = q → R := fun hq h => absurd (h.symm.trans hp) hq
  have nb : ∀ {R : Prop}, busy m.phase = true → R := by
    intro R h
    rw [hp] at h
    cases h
  constructor
  case fb_len => exact h1
  case ks_len => exact h2
  case key_len => exact h3
  case iv_len => exact h4
  case in_len => omega
  case out_len => exact h6
  case busy_clean => exact nb
  case busy_config => exact nb
  case done_ready => exact fun h => ⟨hp, h7 h⟩
  case err_ready => exact fun h => ⟨hp, (h8 h).1⟩
  case in_cap => exact fun _ => h5
  case err_no_output => exact fun h => (h8 h).2
  all_goals exact ne (by simp)

/-- What the invariant asks of a state in BUILD (R38 item 3). -/
theorem inv_of_build {P : Params} {m : Mpe} (hp : m.phase = .build)
    (hc : m.inp = [] ∧ m.out = [] ∧ m.done = false ∧ m.err = none ∧ m.dir = .encrypt ∧ m.blk = 0 ∧ m.nblk = 0 ∧
      m.fb = rep P.B 0 ∧ m.ks = rep P.B 0)
    (h1 : m.key.length ≤ keyCap) (h2 : m.iv.length ≤ ivCap) : m.Inv P := by
  have ne : ∀ {q : Phase} {R : Prop}, q ≠ .build → m.phase = q → R := fun hq h => absurd (h.symm.trans hp) hq
  have nb : ∀ {R : Prop}, busy m.phase = true → R := by
    intro R h
    rw [hp] at h
    cases h
  have hall := hc
  obtain ⟨c1, c2, c3, c4, c5, c6, c7, c8, c9⟩ := hc
  constructor
  case fb_len => simp [c8]
  case ks_len => simp [c9]
  case key_len => exact h1
  case iv_len => exact h2
  case in_len => simp [c1]
  case out_len => simp [c2]
  case build_clean => exact fun _ => hall
  case busy_clean => exact nb
  case busy_config => exact nb
  case done_ready =>
    intro h
    rw [c3] at h
    cases h
  case err_ready => exact fun h => absurd c4 h
  case in_cap => simp [c1]
  case err_no_output => exact fun _ => c2
  all_goals exact ne (by simp)

/-- Every command keeps the invariant. -/
theorem inv_cmd {P : Params} {m : Mpe} (hV : P.Valid) (i : Instr) (hI : m.Inv P) : (cmdOf P i m).1.Inv P := by
  have hg : ∀ c acc, (phaseCheck c m.phase = none → acc.1.Inv P) → (gated c m acc).1.Inv P := by
    intro c acc h
    rcases gated_cases c m acc with ⟨r, _, h1⟩ | ⟨hc, h1⟩ <;> rw [h1]
    · exact hI
    · exact h hc
  have hready := (phaseCheck_data m.phase).mp
  have hbuild := (phaseCheck_config m.phase).mp
  cases i
  case clear => exact hg _ _ fun _ => inv_reset P
  case enc => exact hg _ _ fun h => inv_start hV _ hI (hready h)
  case dec => exact hg _ _ fun h => inv_start hV _ hI (hready h)
  case setmode b => exact hg _ _ fun h => inv_of_build (hbuild h) (hI.build_clean (hbuild h)) hI.key_len hI.iv_len
  case setpad b => exact hg _ _ fun h => inv_of_build (hbuild h) (hI.build_clean (hbuild h)) hI.key_len hI.iv_len
  case pushkey b =>
    refine hg _ _ fun h => ?_
    split
    · exact inv_of_build (hbuild h) (hI.build_clean (hbuild h)) (by simp; omega) hI.iv_len
    · exact hI
  case pushiv b =>
    refine hg _ _ fun h => ?_
    split
    · exact inv_of_build (hbuild h) (hI.build_clean (hbuild h)) hI.key_len (by simp; omega)
    · exact hI
  case lock =>
    refine hg _ _ fun h => ?_
    obtain ⟨h1, h2, h3, h4, _⟩ := hI.build_clean (hbuild h)
    exact inv_of_ready rfl hI.fb_len hI.ks_len hI.key_len hI.iv_len (by simp [h1]) (by simp [h2]) (fun _ => h4)
      (fun h => absurd h4 h)
  case pushd b =>
    refine hg _ _ fun h => ?_
    split
    · have hb := hready h
      exact inv_of_ready hb hI.fb_len hI.ks_len hI.key_len hI.iv_len (by simp; omega) hI.out_len
        (fun h => (hI.done_ready h).2) (fun h => ⟨(hI.err_ready h).2, hI.err_no_output h⟩)
    · exact hI
  case clrd =>
    refine hg _ _ fun h => ?_
    have hb := hready h
    exact inv_of_ready hb hI.fb_len hI.ks_len hI.key_len hI.iv_len (by simp) (by simp) (by simp) (by simp)
  case popd =>
    refine hg _ _ fun h => ?_
    split
    · exact hI
    · rename_i b rest ho
      have hb := hready h
      have h1 : rest.length ≤ P.nmax + P.B := by
        have := hI.out_len
        rw [ho, List.length_cons] at this
        omega
      refine inv_of_ready hb hI.fb_len hI.ks_len hI.key_len hI.iv_len (hI.in_cap (.inl hb)) h1
        (fun h => (hI.done_ready h).2) (fun h => ⟨(hI.err_ready h).2, ?_⟩)
      have := hI.err_no_output h
      rw [ho] at this
      cases this
  all_goals exact hI

/-- A busy engine is never stuck in a state of the invariant (R40). -/
theorem engine_progress {P : Params} {m : Mpe} (hV : P.Valid) (hI : m.Inv P) (hb : busy m.phase = true) :
    ∃ m' calls, engineStep P m = .stepped m' calls := by
  cases hp : m.phase with
  | build => rw [hp] at hb; cases hb
  | ready => rw [hp] at hb; cases hb
  | pad => obtain ⟨_, _, _, _, h, _⟩ := pad_shape hV hI hp; exact ⟨_, _, h⟩
  | run =>
    by_cases h : m.blk < m.nblk
    · obtain ⟨_, _, _, _, h, _⟩ := block_shape hI hp h; exact ⟨_, _, h⟩
    · rw [engineStep_end hp h]; unfold endOfRunStep; split <;> exact ⟨_, _, rfl⟩
  | unpad =>
    obtain ⟨sch, hs, _⟩ := scheme_of_good (hI.busy_config hb)
    rw [engineStep_unpad hp, unpadStep, hs]
    simp only
    split <;> exact ⟨_, _, rfl⟩

end Sys2Proof.Machine
end

