-- ==== Sys2Proof/Laws/PerInstr.lean ====
section
/-! SUPPORT. The family RoundTrip: the word of a command decodes to the command, one lemma per constructor
(spec 30_encoding.md R80, R82). -/

namespace Sys2Proof.Laws.RoundTrip

/-- The word the encoder gives decodes to the instruction, with every operand value. -/
def Statement (i : Instr) : Prop := decode (encode i) = .instr i

/-- A format I8 word decodes to its row's command with its operand. -/
theorem decode_i8 (m : Mnemonic) (b : Byte)
    (hfind : allMnemonics.find? (fun n => opcodeField n.pattern == opcodeField m.pattern) = some m)
    (hmask : m.pattern &&& m.format.mask = m.pattern) (hfmt : m.format = .i8) :
    decode (m.pattern ||| b.setWidth 32) = .instr (m.toInstr b) := by
  unfold decode
  rw [opcodeField_or, hfind]
  simp only
  rw [immField_or, if_pos]
  have hb : b.setWidth 32 &&& Format.mask .i8 = 0#32 := by
    ext j hj
    simp only [BitVec.getElem_and, BitVec.getElem_setWidth, BitVec.getElem_zero]
    rcases Nat.lt_or_ge j 8 with h | h
    · have hj' : j = 0 ∨ j = 1 ∨ j = 2 ∨ j = 3 ∨ j = 4 ∨ j = 5 ∨ j = 6 ∨ j = 7 := by omega
      rcases hj' with rfl | rfl | rfl | rfl | rfl | rfl | rfl | rfl <;> simp [Format.mask]
    · simp [BitVec.getLsbD_of_ge b j h]
  rw [hfmt] at hmask ⊢
  rw [BitVec.and_or_distrib_right, hmask, hb, BitVec.or_zero]

theorem nop : Statement .nop := by unfold Statement; decide
theorem setmode (imm : Byte) : Statement (.setmode imm) := decode_i8 .setmode imm (by decide) (by decide) rfl
theorem setpad (imm : Byte) : Statement (.setpad imm) := decode_i8 .setpad imm (by decide) (by decide) rfl
theorem pushkey (imm : Byte) : Statement (.pushkey imm) := decode_i8 .pushkey imm (by decide) (by decide) rfl
theorem pushiv (imm : Byte) : Statement (.pushiv imm) := decode_i8 .pushiv imm (by decide) (by decide) rfl
theorem lock : Statement .lock := by unfold Statement; decide
theorem clear : Statement .clear := by unfold Statement; decide
theorem pushd (imm : Byte) : Statement (.pushd imm) := decode_i8 .pushd imm (by decide) (by decide) rfl
theorem clrd : Statement .clrd := by unfold Statement; decide
theorem enc : Statement .enc := by unfold Statement; decide
theorem dec : Statement .dec := by unfold Statement; decide
theorem popd : Statement .popd := by unfold Statement; decide
theorem rdstat : Statement .rdstat := by unfold Statement; decide
theorem rdcfg : Statement .rdcfg := by unfold Statement; decide
theorem rdilen : Statement .rdilen := by unfold Statement; decide
theorem rdolen : Statement .rdolen := by unfold Statement; decide
theorem rdklen : Statement .rdklen := by unfold Statement; decide
theorem rdbs : Statement .rdbs := by unfold Statement; decide
theorem rdblk : Statement .rdblk := by unfold Statement; decide

end Sys2Proof.Laws.RoundTrip
end

