-- ==== Sys2Proof/Laws/Turns.lean ====
section
/-! SUPPORT. The engine left to itself: its turns, how many are left, and what its block steps put out. -/

namespace Sys2Proof.Machine

/-! ### Turns of the engine -/

/-- What a turn of the engine leaves of the MPE. -/
def turn (P : Params) (m : Mpe) : Mpe :=
  match engineStep P m with
  | .idle => m
  | .stepped m' _ => m'
  | .stuck _ => m

/-- The adapter calls of a turn. -/
def turnCalls (P : Params) (m : Mpe) : List AdapterCall :=
  match engineStep P m with
  | .idle => []
  | .stepped _ calls => calls
  | .stuck _ => []

/-- The adapter calls of the first `n` turns. -/
def callsN (P : Params) : Nat → Mpe → List AdapterCall
  | 0, _ => []
  | n + 1, m => turnCalls P m ++ callsN P n (turn P m)

/-- The state after a turn. -/
def State.afterTurn (s : State) : State :=
  { s with mpe := turn Config.params s.mpe, atrace := s.atrace ++ turnCalls Config.params s.mpe }

theorem turn_stepped {P : Params} {m m' : Mpe} {calls : List AdapterCall} (h : engineStep P m = .stepped m' calls) :
    turn P m = m' := by
  simp [turn, h]

theorem engineStep_idle {P : Params} {m : Mpe} (h : busy m.phase = false) : engineStep P m = .idle := by
  rw [engineStep_idle_iff]
  cases hp : m.phase <;> simp_all [busy]

theorem turn_idle {P : Params} {m : Mpe} (h : busy m.phase = false) : turn P m = m := by
  simp [turn, engineStep_idle h]

theorem turnCalls_idle {P : Params} {m : Mpe} (h : busy m.phase = false) : turnCalls P m = [] := by
  simp [turnCalls, engineStep_idle h]

theorem inv_turn {P : Params} {m : Mpe} (hV : P.Valid) (hI : m.Inv P) : (turn P m).Inv P := by
  unfold turn
  cases h : engineStep P m with
  | idle => exact hI
  | stepped m' calls => exact inv_engine hV hI h
  | stuck f => exact hI

/-- In a state of the invariant a turn of the engine answers a next state. -/
theorem engineTurn_eq {s : State} (hI : s.Inv) : engineTurn s = .next s.afterTurn := by
  unfold engineTurn State.afterTurn turn turnCalls
  cases hb : busy s.mpe.phase with
  | true =>
    obtain ⟨m', calls, h⟩ := engine_progress config_valid hI hb
    rw [h]
  | false =>
    rw [engineStep_idle hb]
    simp

/-- The machine left alone takes one turn after another (R270). -/
theorem runSteps_silent (n : Nat) : ∀ {s : State}, s.Inv → s.inputs = [] →
    runSteps n s =
      .next
        { s with
          mpe := (turn Config.params)^[n] s.mpe
          atrace := s.atrace ++ callsN Config.params n s.mpe } := by
  induction n with
  | zero =>
    intro s _ _
    simp [callsN]
  | succ n ih =>
    intro s hI hi
    have hs : step s = .next s.afterTurn := (step_of_nil hi).trans (engineTurn_eq hI)
    refine (runSteps_succ n hs).trans ((@ih s.afterTurn (inv_turn config_valid hI) hi).trans ?_)
    simp [State.afterTurn, callsN]

/-! ### How many turns are left -/

/-- The engine steps left until the engine is idle (R150). -/
def stepsLeft (P : Params) (m : Mpe) : Nat :=
  match m.phase with
  | .build | .ready => 0
  | .unpad => 1
  | .run => (m.nblk.toNat - m.blk.toNat) + (if m.dir = .decrypt ∧ inBlockMode m then 2 else 1)
  | .pad => ((match schemeOf m.pad with | some sch => (applyPad P.B m.inp sch).length | none => 0) / P.B) + 2

theorem stepsLeft_zero {P : Params} {m : Mpe} : stepsLeft P m = 0 ↔ busy m.phase = false := by
  cases hp : m.phase <;> simp [stepsLeft, hp, busy]
  intro _
  split_ifs <;> simp

/-- A turn of a busy engine is one step fewer. -/
theorem stepsLeft_turn {P : Params} {m : Mpe} (hV : P.Valid) (hI : m.Inv P) (hb : busy m.phase = true) :
    stepsLeft P (turn P m) + 1 = stepsLeft P m := by
  cases hp : m.phase with
  | build =>
    rw [hp] at hb
    cases hb
  | ready =>
    rw [hp] at hb
    cases hb
  | pad =>
    obtain ⟨sch, hs, h5, hcode, h, hal, hle⟩ := pad_shape hV hI hp
    rw [turn_stepped h]
    have hfr := hI.pad_fresh hp
    have hd := hI.pad_block hp
    simp only [stepsLeft, hp, hs, hfr.2, hd.1]
    rw [count24_toNat _ (ceilDiv_bound hV hle), ceilDiv_of_mod_eq_zero _ _ (valid_pos hV) hal]
    simp
  | run =>
    by_cases hlt : m.blk < m.nblk
    · obtain ⟨y, f, ks', c, h, _⟩ := block_shape hI hp hlt
      rw [turn_stepped h]
      have := blk_lt_toNat hlt
      simp only [stepsLeft, emitBlock_phase, hp, emitBlock_nblk, emitBlock_blk, blk_add_one_toNat hlt, emitBlock_dir,
        inBlockMode, emitBlock_mode]
      split_ifs with hq <;> simp only [hq, and_self, if_true, if_false] <;> omega
    · have h0 : m.nblk.toNat - m.blk.toNat = 0 := by
        rw [BitVec.lt_def] at hlt
        omega
      have he := engineStep_end (P := P) hp hlt
      unfold endOfRunStep at he
      by_cases hc : m.dir = .decrypt ∧ inBlockMode m
      · rw [turn_stepped (he.trans (if_pos hc))]
        simp only [stepsLeft, hp, h0, if_pos hc]
      · rw [turn_stepped (he.trans (if_neg hc))]
        simp only [stepsLeft, complete_phase, hp, h0, if_neg hc]
  | unpad =>
    have hready : ∃ m' calls, engineStep P m = .stepped m' calls ∧ m'.phase = .ready := by
      obtain ⟨m', calls, h⟩ := engine_progress hV hI hb
      refine ⟨m', calls, h, ?_⟩
      rw [engineStep_unpad hp] at h
      unfold unpadStep at h
      split at h
      · cases h
      · split at h <;> cases h <;> rfl
    obtain ⟨m', calls, h, hr⟩ := hready
    rw [turn_stepped h]
    simp only [stepsLeft, hr, hp]

theorem stepsLeft_turns {P : Params} (hV : P.Valid) (n : Nat) :
    ∀ {m : Mpe}, m.Inv P → stepsLeft P ((turn P)^[n] m) = stepsLeft P m - n := by
  induction n with
  | zero =>
    intros
    rfl
  | succ n ih =>
    intro m hI
    rw [Function.iterate_succ_apply, ih (inv_turn hV hI)]
    cases hb : busy m.phase with
    | true =>
      have := stepsLeft_turn hV hI hb
      omega
    | false =>
      rw [turn_idle hb, stepsLeft_zero.mpr hb]
      omega

/-- No transformation takes longer than that of the largest buffer. -/
theorem stepsLeft_bound {P : Params} {m : Mpe} (hV : P.Valid) (hI : m.Inv P) :
    stepsLeft P m ≤ ceilDiv P.nmax P.B + 3 := by
  have hB := valid_pos hV
  have hadd := ceilDiv_add P.nmax P.B hB
  cases hp : m.phase with
  | build => simp [stepsLeft, hp]
  | ready => simp [stepsLeft, hp]
  | unpad => simp [stepsLeft, hp]
  | pad =>
    obtain ⟨sch, hs, h5, hcode, h, hal, hle⟩ := pad_shape hV hI hp
    simp only [stepsLeft, hp, hs]
    have := ceilDiv_mono (B := P.B) hle
    rw [ceilDiv_of_mod_eq_zero _ _ hB hal] at this
    omega
  | run =>
    simp only [stepsLeft, hp]
    have hlen := ceilDiv_mono (B := P.B) hI.in_len
    have : m.nblk.toNat - m.blk.toNat = ceilDiv m.inp.length P.B := by
      rcases (hI.busy_config (by rw [hp]; rfl)).mode_named with hm | hm
      · rw [hI.run_block hp hm, ceilDiv_mul _ _ hB]
      · rw [hI.run_stream hp hm]
    split_ifs <;> omega

/-- Once the engine is idle, more turns change nothing. -/
theorem turns_stable {P : Params} {m : Mpe} (hV : P.Valid) (hI : m.Inv P) (n k : Nat) (h : stepsLeft P m ≤ n) :
    (turn P)^[n + k] m = (turn P)^[n] m ∧ callsN P (n + k) m = callsN P n m := by
  induction n generalizing m with
  | zero =>
    have hb := stepsLeft_zero.mp (Nat.le_zero.mp h)
    rw [Nat.zero_add]
    induction k with
    | zero => exact ⟨rfl, rfl⟩
    | succ k ih =>
      have hc : callsN P (k + 1) m = turnCalls P m ++ callsN P k (turn P m) := rfl
      rw [Function.iterate_succ_apply, hc, turn_idle hb, turnCalls_idle hb]
      exact ih
  | succ n ih =>
    rw [Nat.succ_add, Function.iterate_succ_apply, Function.iterate_succ_apply, callsN, callsN]
    have h1 := stepsLeft_turns hV 1 hI
    simp only [Function.iterate_one] at h1
    have h2 := ih (inv_turn hV hI) (by omega)
    exact ⟨h2.1, by rw [h2.2]⟩

/-! ### What the block steps put out -/

/-- The output still to come, from the register and the input left. -/
def modeOut (P : Params) (md : Mode) : Dir → Bytes → Bytes → Bytes → Bytes
  | .encrypt => modeEnc P md
  | .decrypt => modeDec P md

theorem modeOut_nil (P : Params) (hB : 0 < P.B) (md : Mode) (d : Dir) (k f : Bytes) : modeOut P md d k f [] = [] := by
  cases md <;> cases d <;>
    simp [modeOut, modeEnc, modeDec, blocksOf_nil _ hB, cbcEncBlocks, cbcDecBlocks, streamBlocks]

/-- A block step puts out the head of the output still to come (R188, R210). -/
theorem block_out {P : Params} {m : Mpe} (hV : P.Valid) (hI : m.Inv P) (hp : m.phase = .run) (hb : m.blk < m.nblk)
    (md : Mode) (hmode : m.mode = modeCode md) :
    ∃ (y f ks' : Bytes) (c : AdapterCall),
      engineStep P m = .stepped { emitBlock (min P.B m.inp.length) y m with fb := f, ks := ks' } [c] ∧
      modeOut P md m.dir m.key m.fb m.inp =
        y ++ modeOut P md m.dir m.key f (m.inp.drop (min P.B m.inp.length)) := by
  have hB := valid_pos hV
  have hf := hI.fb_len
  have hk := enc_length P m.key m.fb hf
  have hne : m.inp ≠ [] := by
    intro h
    have hlt := blk_lt_toNat hb
    rcases (hI.busy_config (by rw [hp]; rfl)).mode_named with hm | hm
    · have := run_in_block hI hp hb hm
      rw [h, List.length_nil] at this
      omega
    · have := hI.run_stream hp hm
      rw [h, List.length_nil, ceilDiv_zero_left _ hB] at this
      omega
  have hbl : blockMode md = true → P.B ≤ m.inp.length := by
    intro h
    apply run_in_block hI hp hb
    rw [inBlockMode, hmode]
    cases md <;> simp_all [blockMode, modeCode]
  have hx : (m.inp.take P.B).length ≤ P.B := List.length_take_le _ _
  have hy : (xorBytes (m.inp.take P.B) (P.enc m.key m.fb)).length = (m.inp.take P.B).length := by
    rw [xorBytes_length, hk]
    omega
  cases md with
  | cbc =>
    have hle := hbl rfl
    rw [Nat.min_eq_left hle]
    cases hd : m.dir with
    | encrypt =>
      refine ⟨_, _, m.ks, _, (engineStep_mode hf .cbc hp hb hmode hd).trans (cbcEncStep_ok hf hle), ?_⟩
      simp only [modeOut, modeEnc]
      rw [blocksOf_cons _ hB _ hne, cbcEncBlocks]
    | decrypt =>
      refine ⟨_, _, m.ks, _, (engineStep_mode hf .cbc hp hb hmode hd).trans (cbcDecStep_ok hle), ?_⟩
      simp only [modeOut, modeDec]
      rw [blocksOf_cons _ hB _ hne, cbcDecBlocks]
  | ecb =>
    have hle := hbl rfl
    rw [Nat.min_eq_left hle]
    cases hd : m.dir with
    | encrypt =>
      refine ⟨_, m.fb, m.ks, _, (engineStep_mode hf .ecb hp hb hmode hd).trans (ecbEncStep_ok hle), ?_⟩
      simp only [modeOut, modeEnc]
      rw [blocksOf_cons _ hB _ hne, List.flatMap_cons]
    | decrypt =>
      refine ⟨_, m.fb, m.ks, _, (engineStep_mode hf .ecb hp hb hmode hd).trans (ecbDecStep_ok hle), ?_⟩
      simp only [modeOut, modeDec]
      rw [blocksOf_cons _ hB _ hne, List.flatMap_cons]
  | cfb =>
    cases hd : m.dir with
    | encrypt =>
      refine ⟨_, _, _, _, (engineStep_mode hf .cfb hp hb hmode hd).trans (streamStep_ok P _ m hf), ?_⟩
      simp only [modeOut, modeEnc, take_min, drop_min, cfbEncNext]
      rw [blocksOf_cons _ hB _ hne, streamBlocks, hy]
    | decrypt =>
      refine ⟨_, _, _, _, (engineStep_mode hf .cfb hp hb hmode hd).trans (streamStep_ok P _ m hf), ?_⟩
      simp only [modeOut, modeDec, take_min, drop_min, cfbDecNext]
      rw [blocksOf_cons _ hB _ hne, streamBlocks]
  | ofb =>
    refine ⟨_, _, _, _, (engineStep_mode hf .ofb hp hb hmode rfl).trans (streamStep_ok P _ m hf), ?_⟩
    cases m.dir <;> simp only [modeOut, modeDec, modeEnc, take_min, drop_min, ofbNext] <;>
      rw [blocksOf_cons _ hB _ hne, streamBlocks]
  | ctr =>
    refine ⟨_, _, _, _, (engineStep_mode hf .ctr hp hb hmode rfl).trans (streamStep_ok P _ m hf), ?_⟩
    cases m.dir <;> simp only [modeOut, modeDec, modeEnc, take_min, drop_min, ctrNext] <;>
      rw [blocksOf_cons _ hB _ hne, streamBlocks]

/-- All the block steps of a transformation: RUN with no block left, `IN` empty, and the whole output in `OUT`. -/
theorem blocks_out {P : Params} (hV : P.Valid) (md : Mode) (n : Nat) :
    ∀ {m : Mpe}, m.Inv P → m.phase = .run → m.mode = modeCode md → m.nblk.toNat - m.blk.toNat = n →
      ∃ m' : Mpe, (turn P)^[n] m = m' ∧ m'.phase = .run ∧ ¬ m'.blk < m'.nblk ∧ EngineFrame m m' ∧ m'.inp = [] ∧
        m'.out = m.out ++ modeOut P md m.dir m.key m.fb m.inp ∧ m'.Inv P := by
  induction n with
  | zero =>
    intro m hI hp hmode hn
    have hin : m.inp = [] := by
      rcases (hI.busy_config (by rw [hp]; rfl)).mode_named with hm | hm
      · have := hI.run_block hp hm
        rw [hn, Nat.zero_mul] at this
        exact List.length_eq_zero_iff.mp this
      · have := hI.run_stream hp hm
        rw [hn, ceilDiv_eq_zero_iff _ _ (valid_pos hV)] at this
        exact List.length_eq_zero_iff.mp this
    refine ⟨m, rfl, hp, ?_, ⟨rfl, rfl, rfl, rfl, rfl, by rw [hp]; simp⟩, hin, ?_, hI⟩
    · rw [BitVec.lt_def]
      omega
    · rw [hin, modeOut_nil P (valid_pos hV), List.append_nil]
  | succ n ih =>
    intro m hI hp hmode hn
    have hb : m.blk < m.nblk := by
      rw [BitVec.lt_def]
      omega
    obtain ⟨y, f, ks', c, h, ho⟩ := block_out hV hI hp hb md hmode
    have ht := turn_stepped h
    have hI' := inv_turn hV hI
    rw [ht] at hI'
    have hn' : (m.nblk.toNat - (m.blk + 1).toNat) = n := by
      rw [blk_add_one_toNat hb]
      omega
    obtain ⟨m', h1, h2, h3, h4, h5, h6, h7⟩ :=
      ih (m := { emitBlock (min P.B m.inp.length) y m with fb := f, ks := ks' }) hI' hp hmode hn'
    refine ⟨m', by rw [Function.iterate_succ_apply, ht, h1], h2, h3,
      ⟨h4.mode, h4.pad, h4.key, h4.iv, h4.dir, h4.phase⟩, h5, ?_, h7⟩
    rw [h6, ho]
    simp

end Sys2Proof.Machine
end

