-- ==== Sys2Proof/Tests/Slice0.lean ====
section
/-! SUPPORT. Tests: expected results are the vectors of spec/95_test_vectors.md, the encodings of 30_encoding.md, or worked by
hand from the rule named. After them, for each obligation with hypotheses, values that meet them together. -/

namespace Sys2Proof.Tests

open Sys2Proof Sys2Proof.Machine

/-! ### Well-formed lines (R80, R90) -/

theorem test_line_z_with_operand : AsmLine.wellFormed ⟨.enc, some 0⟩ = false := by decide

theorem test_line_i8_without_operand : AsmLine.wellFormed ⟨.pushd, none⟩ = false := by decide

theorem test_line_operand_too_large : AsmLine.wellFormed ⟨.pushkey, some 256⟩ = false := by decide

theorem test_line_refused_by_the_assembler : AsmLine.assemble ⟨.setmode, some 256⟩ = none := by decide

theorem test_line_largest_operand : AsmLine.assemble ⟨.pushkey, some 255⟩ = some (.pushkey 255) := by decide

/-! ### Words written out from the table R82 -/

theorem test_decode_config :
    decode 0b00000000_000000000000000000000000#32 = .instr .nop ∧
    decode 0b00000001_000000000000000000000011#32 = .instr (.setmode 3) ∧
    decode 0b00000010_000000000000000000000100#32 = .instr (.setpad 4) ∧
    decode 0b00000011_000000000000000011111111#32 = .instr (.pushkey 0xFF) ∧
    decode 0b00000100_000000000000000010000001#32 = .instr (.pushiv 0x81) ∧
    decode 0b00000101_000000000000000000000000#32 = .instr .lock ∧
    decode 0b00000110_000000000000000000000000#32 = .instr .clear := by decide

theorem test_decode_data :
    decode 0b00001000_000000000000000001101000#32 = .instr (.pushd 0x68) ∧
    decode 0b00001001_000000000000000000000000#32 = .instr .clrd ∧
    decode 0b00001010_000000000000000000000000#32 = .instr .enc ∧
    decode 0b00001011_000000000000000000000000#32 = .instr .dec ∧
    decode 0b00001100_000000000000000000000000#32 = .instr .popd := by decide

theorem test_decode_reads :
    decode 0b00010000_000000000000000000000000#32 = .instr .rdstat ∧
    decode 0b00010001_000000000000000000000000#32 = .instr .rdcfg ∧
    decode 0b00010010_000000000000000000000000#32 = .instr .rdilen ∧
    decode 0b00010011_000000000000000000000000#32 = .instr .rdolen ∧
    decode 0b00010100_000000000000000000000000#32 = .instr .rdklen ∧
    decode 0b00010101_000000000000000000000000#32 = .instr .rdbs ∧
    decode 0b00010110_000000000000000000000000#32 = .instr .rdblk := by decide

/-- The unassigned opcodes at the edges of their ranges, and must-be-zero bits at both ends of their fields (R82, R83). -/
theorem test_decode_refused :
    decode 0x07000000#32 = .illegal ∧ decode 0x0D000000#32 = .illegal ∧ decode 0x0F123456#32 = .illegal ∧
    decode 0x17000000#32 = .illegal ∧ decode 0xFFFFFFFF#32 = .illegal ∧
    decode 0x00000001#32 = .operand ∧ decode 0x16800000#32 = .operand ∧
    decode 0x01000101#32 = .operand ∧ decode 0x08800000#32 = .operand := by decide

theorem test_encode : encode .enc = 0x0A000000#32 ∧ encode (.pushd 0x68) = 0x08000068#32 := by decide

/-! ### The toy adapter of 95_test_vectors.md section 2, and its constants -/

/-- `T(n)`: a block of `n` bytes, a key of `n` bytes, room for 1024 bytes of data. -/
def toy (n : Nat) : Params where
  B := n
  nmax := 1024
  keyOk k := decide (k.length = n)
  E k x := ⟨((List.range n).map fun i =>
    (x.toArray.toList.getD ((i + 1) % n) 0 ^^^ k.getD ((i + 1) % n) 0) + BitVec.ofNat 8 i).toArray, by simp⟩
  D k y := ⟨((List.range n).map fun j =>
    (y.toArray.toList.getD ((j + n - 1) % n) 0 - BitVec.ofNat 8 ((j + n - 1) % n)) ^^^ k.getD j 0).toArray, by simp⟩

def k8 : Bytes := [0x13, 0x57, 0x9B, 0xDF, 0x02, 0x46, 0x8A, 0xCE]
def iv8 : Bytes := [0x10, 0x11, 0x12, 0x13, 0x14, 0x15, 0x16, 0x17]

/-- `p(n)`: the bytes `01 02 ..`. -/
def pbytes (n : Nat) : Bytes := (List.range n).map fun i => BitVec.ofNat 8 (i + 1)

/-- A sealed machine with its parameters and its input bytes. -/
def ready8 (mode pad : Byte) (data : Bytes) : Mpe := { configured (toy 8) mode pad k8 iv8 with inp := data }

/-- The machine `n` engine steps after ENC or DEC. -/
def after (c : Instr) (n : Nat) (m : Mpe) : Mpe := Nat.iterate (turn (toy 8)) n (cmdOf (toy 8) c m).1

theorem test_toy_encrypts : (toy 8).enc k8 (pbytes 8) = [0x55, 0x99, 0xDD, 0x0A, 0x44, 0x92, 0xCC, 0x19] := by decide

theorem test_toy_decrypts : (toy 8).dec k8 [0x46, 0x8A, 0xCE, 0x19, 0x57, 0xA1, 0xDF, 0x0A] = iv8 := by decide

/-! ### Padding (V3) and the counter (V5) -/

theorem test_pad_adders :
    applyPad 8 [] .pkcs7 = List.replicate 8 8 ∧ applyPad 8 (pbytes 8) .pkcs5 = pbytes 8 ++ List.replicate 8 8 ∧
    applyPad 4 [0x41, 0x42] .pkcs7 = [0x41, 0x42, 2, 2] ∧ applyPad 4 [0x41] .zero = [0x41, 0, 0, 0] ∧
    applyPad 4 [0x41] .identity = [0x41] := by decide

theorem test_pad_removers :
    removePkcs7 [0x41, 0x42, 0x07, 0x02] 4 = some [0x41, 0x42] ∧
    removePkcs7 (List.replicate 7 0x41 ++ [0x09]) 8 = none ∧ removePkcs7 [] 8 = none ∧ removePkcs7 [0x41, 0] 8 = none ∧
    removeZero [0x41, 0, 0x42, 0, 0] = [0x41, 0, 0x42] ∧ removeZero (List.replicate 8 0) = [] := by decide

theorem test_inc_be :
    incBe [0xFF] = [0x00] ∧ incBe [0x7F, 0xFF] = [0x80, 0x00] ∧
    incBe [0, 0, 0, 0, 0, 0xFF, 0xFF, 0xFF] = [0, 0, 0, 0, 1, 0, 0, 0] ∧
    incBe (List.replicate 8 0xFF) = List.replicate 8 0 := by decide

/-! ### Modes (V4, V5) and whole transformations -/

theorem test_encrypt_cbc_none :
    encryptRef (toy 8) 1 1 k8 iv8 (pbytes 16) =
      .ok [0x44, 0x8B, 0xCA, 0x16, 0x59, 0xA0, 0xD7, 0x09, 0xD6, 0x5B, 0xC7, 0x59, 0xEC, 0x57, 0xDD, 0x65] := by decide

theorem test_encrypt_ecb : modeEnc (toy 8) .ecb k8 [] (pbytes 8 ++ pbytes 8) =
    [0x55, 0x99, 0xDD, 0x0A, 0x44, 0x92, 0xCC, 0x19, 0x55, 0x99, 0xDD, 0x0A, 0x44, 0x92, 0xCC, 0x19] := by decide

theorem test_encrypt_cfb : modeEnc (toy 8) .cfb k8 iv8 (pbytes 11) =
    [0x47, 0x88, 0xCD, 0x1D, 0x52, 0xA7, 0xD8, 0x02, 0xD6, 0x5D, 0xCF] := by decide

theorem test_encrypt_ofb : modeEnc (toy 8) .ofb k8 iv8 (pbytes 11) =
    [0x47, 0x88, 0xCD, 0x1D, 0x52, 0xA7, 0xD8, 0x02, 0xD4, 0x5C, 0xC3] := by decide

theorem test_encrypt_ctr : modeEnc (toy 8) .ctr k8 (List.replicate 8 0xFF) (pbytes 16) =
    [0xA9, 0x67, 0x21, 0x04, 0xB8, 0x7C, 0x30, 0xFB, 0x5E, 0x96, 0xEA, 0x09, 0x47, 0x81, 0xDB, 0x0A] := by decide

theorem test_decrypt_invalid_padding :
    decryptRef (toy 8) 1 4 k8 iv8 [0x07, 0xC9, 0x8F, 0x5A, 0x16, 0xE2, 0xDF, 0x49] = .error .invalidPadding ∧
    decryptRef (toy 8) 1 4 k8 iv8 [0x04, 0xCB, 0x8A, 0x56, 0x19, 0xA0, 0xE1, 0x49] =
      .ok [0x41, 0x42, 0x43, 0x44, 0x45, 0x46] := by decide

/-! ### Engine steps -/

/-- V4.2: PAD, one CBC block step, end of RUN. -/
theorem test_engine_cbc_pkcs7 :
    (after .enc 3 (ready8 1 4 [1, 2, 3])).out = [0x44, 0x8B, 0xCB, 0x16, 0x5A, 0x9E, 0xE2, 0x09] ∧
    (after .enc 3 (ready8 1 4 [1, 2, 3])).phase = .ready := by decide

/-- V4.2 back: one CBC block step, end of RUN, UNPAD. -/
theorem test_engine_cbc_decrypt :
    (after .dec 3 (ready8 1 4 [0x44, 0x8B, 0xCB, 0x16, 0x5A, 0x9E, 0xE2, 0x09])).out = [1, 2, 3] := by decide

/-- V4.10. -/
theorem test_engine_invalid_padding :
    (after .dec 3 (ready8 1 4 [0x07, 0xC9, 0x8F, 0x5A, 0x16, 0xE2, 0xDF, 0x49])).err = some .invalidPadding := by decide

/-- The register after a partial CFB segment is shifted by its length (R201, 95_test_vectors.md section 8). -/
theorem test_engine_cfb_decrypt_partial :
    (after .dec 2 (ready8 3 1 [0x47, 0x88, 0xCD, 0x1D, 0x52, 0xA7, 0xD8, 0x02, 0xD6, 0x5D, 0xCF])).fb =
        [0x1D, 0x52, 0xA7, 0xD8, 0x02, 0xD6, 0x5D, 0xCF] ∧
    (after .dec 3 (ready8 3 1 [0x47, 0x88, 0xCD, 0x1D, 0x52, 0xA7, 0xD8, 0x02, 0xD6, 0x5D, 0xCF])).out =
        pbytes 11 := by decide

theorem test_engine_ofb : (after .enc 1 (ready8 4 1 (pbytes 11))).fb = [0x46, 0x8A, 0xCE, 0x19, 0x57, 0xA1, 0xDF, 0x0A] := by
  decide

/-- V5.8, the counter after one block. -/
theorem test_engine_ctr :
    (after .enc 2 (ready8 5 1 (pbytes 11))).out = [0x47, 0x88, 0xCD, 0x1D, 0x52, 0xA7, 0xD8, 0x02, 0x4F, 0x80, 0xC5] ∧
    (after .enc 1 (ready8 5 1 (pbytes 11))).fb = [0x10, 0x11, 0x12, 0x13, 0x14, 0x15, 0x16, 0x18] := by decide

/-! ### Commands (V6, V7): the MPE left and the response word -/

def build8 : Mpe := Mpe.reset (toy 8)

theorem test_nop : cmdOf (toy 8) .nop build8 = (build8, 0#32) := by decide

theorem test_setmode :
    cmdOf (toy 8) (.setmode 77) build8 = ({ build8 with mode := 77 }, 0#32) ∧
    (cmdOf (toy 8) (.setmode 1) (ready8 1 1 [])).2 = 0x84000000#32 := by decide

theorem test_setpad : cmdOf (toy 8) (.setpad 4) build8 = ({ build8 with pad := 4 }, 0#32) := by decide

theorem test_pushkey : (cmdOf (toy 8) (.pushkey 2) { build8 with key := [1] }).1.key = [1, 2] := by decide

theorem test_pushkey_full {k : Bytes} (h : k.length = 255) :
    (cmdOf (toy 8) (.pushkey 2) { build8 with key := k }).2 = 0x86000000#32 := by
  simp [cmdOf, cmdPushkey, gated, phaseCheck, build8, Mpe.reset, keyCap, nakWord, reasonCode, h]

theorem test_pushiv : (cmdOf (toy 8) (.pushiv 2) { build8 with iv := [1] }).1.iv = [1, 2] := by decide

theorem test_lock : (cmdOf (toy 8) .lock build8).1.phase = .ready := by decide

theorem test_clear :
    cmdOf (toy 8) .clear (ready8 1 4 [1]) = (build8, 0#32) ∧
    (cmdOf (toy 8) .clear (after .enc 0 (ready8 1 4 [1]))).2 = 0x83000000#32 := by decide

theorem test_pushd :
    (cmdOf (toy 8) (.pushd 2) (ready8 1 4 [1])).1.inp = [1, 2] ∧
    (cmdOf (toy 8) (.pushd 2) build8).2 = 0x85000000#32 := by decide

theorem test_clrd :
    cmdOf (toy 8) .clrd { ready8 1 4 [1] with out := [2], done := true, dir := .decrypt } =
      ({ ready8 1 4 [] with dir := .decrypt }, 0#32) := by decide

/-- V6, in the order of the checks. -/
theorem test_enc_errors :
    (cmdOf (toy 8) .enc { configured (toy 8) 0 0 [] [] with inp := [] }).2 = 1#32 ∧
    (cmdOf (toy 8) .enc (configured (toy 8) 1 0 [] iv8)).2 = 2#32 ∧
    (cmdOf (toy 8) .enc (configured (toy 8) 1 4 (k8.take 7) [])).2 = 3#32 ∧
    (cmdOf (toy 8) .enc (configured (toy 8) 1 1 k8 (iv8.take 7))).2 = 4#32 ∧
    (cmdOf (toy 16) .enc (configured (toy 16) 1 3 (pbytes 16) (pbytes 16))).2 = 5#32 ∧
    (cmdOf (toy 8) .enc (ready8 1 1 [1, 2, 3])).2 = 6#32 := by decide

theorem test_dec_needs_alignment_under_every_padding :
    (cmdOf (toy 8) .dec (ready8 1 4 [1, 2, 3])).2 = 6#32 ∧
    (cmdOf (toy 8) .dec (ready8 5 4 [1, 2, 3])).1.phase = .run := by decide

theorem test_popd :
    cmdOf (toy 8) .popd { ready8 1 4 [] with out := [0x00, 0x41] } = ({ ready8 1 4 [] with out := [0x41] }, 0#32) ∧
    (cmdOf (toy 8) .popd (ready8 1 4 [])).2 = 0x87000000#32 := by decide

/-- The STATUS words of 95_test_vectors.md: sealed, in PAD, in RUN decrypting, complete, and a failed ENC. -/
theorem test_rdstat :
    (cmdOf (toy 8) .rdstat (ready8 1 4 [])).2 = 0x1#32 ∧
    (cmdOf (toy 8) .rdstat (after .enc 0 (ready8 1 4 []))).2 = 0x2#32 ∧
    (cmdOf (toy 8) .rdstat (after .dec 0 (ready8 1 4 []))).2 = 0x13#32 ∧
    (cmdOf (toy 8) .rdstat (after .enc 3 (ready8 1 4 []))).2 = 0x9#32 ∧
    (cmdOf (toy 8) .rdstat (after .enc 0 (ready8 0 4 []))).2 = 0x101#32 := by decide

theorem test_rdcfg : (cmdOf (toy 8) .rdcfg (ready8 1 4 [])).2 = 0x401#32 := by decide

theorem test_rdilen : (cmdOf (toy 8) .rdilen (ready8 1 4 (pbytes 11))).2 = 11#32 := by decide

theorem test_rdolen : (cmdOf (toy 8) .rdolen { ready8 1 4 [] with out := pbytes 9 }).2 = 9#32 := by decide

theorem test_rdklen : (cmdOf (toy 16) .rdklen (configured (toy 16) 1 4 (pbytes 16) (pbytes 16))).2 = 0x1010#32 := by decide

theorem test_rdbs : (cmdOf (toy 16) .rdbs build8).2 = 16#32 := by decide

theorem test_rdblk : (cmdOf (toy 8) .rdblk (after .enc 2 (ready8 5 1 (pbytes 11)))).2 = 2#32 := by decide

/-! ### One step of the machine -/

/-- A presented word is answered, and the event is gone (R11). -/
theorem test_step_illegal : step (State.reset.withFetchWord 32 0x07000000) =
    .next { State.reset with resps := [0x81000000#32] } := rfl

theorem test_step_lock : step (State.reset.withFetchWord 32 0x05000000) =
    .next { State.reset with mpe := { State.reset.mpe with phase := .ready }, resps := [0#32] } := rfl

/-! ### Values that meet the hypotheses of the obligations -/

/-- The machine after reset, in another phase. -/
def inPhase (p : Phase) : State := { State.reset with mpe := { State.reset.mpe with phase := p } }

/-- The machine after reset with events waiting. -/
def waiting (l : List Input) : State := { State.reset with inputs := l }

theorem test_meets_EveryDecodedWordIsTheEncodingOfItsCommand : decode 0x080000FF#32 = .instr (.pushd 0xFF) := by decide

theorem test_meets_StepRunsThePresentedCommand :
    (waiting [.command 0x05000000#32]).inputs = [.command 0x05000000#32] ∧ decode 0x05000000#32 = .instr .lock :=
  ⟨rfl, by decide⟩

/-- Every edge of the ranges of unassigned opcodes, and the first and last bit of the must-be-zero fields. -/
theorem test_meets_WordsThatAreNoCommandAreRefused :
    (waiting [.command 0x07000000#32]).inputs = .command 0x07000000#32 :: [] ∧
    (0x07000000#32).extractLsb' 24 8 = 0x07#8 ∧
    (0x0D#8 ≤ (0x0D000000#32).extractLsb' 24 8 ∧ (0x0F000000#32).extractLsb' 24 8 ≤ 0x0F#8) ∧
    (0x17#8 ≤ (0x17000000#32).extractLsb' 24 8 ∧ 0x17#8 ≤ (0xFF000000#32).extractLsb' 24 8) ∧
    (0x00000001#32).extractLsb' 0 24 ≠ 0#24 ∧ (0x16800000#32).extractLsb' 0 24 ≠ 0#24 ∧
    (0x01000100#32).extractLsb' 8 16 ≠ 0#16 ∧ (0x08800000#32).extractLsb' 8 16 ≠ 0#16 :=
  ⟨rfl, by decide⟩

/-- Both cases, and both ways the engine gets its turn. -/
theorem test_meets_EngineTakesItsTurn :
    (waiting [.engineTurn]).inputs = .engineTurn :: [] ∧ (waiting []).inputs = [] ∧
    engineStep Config.params (waiting []).mpe = .idle ∧
    engineStep Config.params (inPhase .run).mpe = .stepped { (inPhase .ready).mpe with done := true } [] :=
  ⟨rfl, rfl, rfl, rfl⟩

theorem test_meets_ResetPutsEveryPieceAtItsResetValue :
    (waiting [.assertReset, .engineTurn]).inputs = .assertReset :: [.engineTurn] := rfl

theorem test_meets_CommandsAreAcceptedByPhase :
    (inPhase .build).mpe.phase = .build ∧ (inPhase .ready).mpe.phase = .ready ∧ busy (inPhase .pad).mpe.phase = true ∧
    busy (inPhase .run).mpe.phase = true ∧ busy (inPhase .unpad).mpe.phase = true :=
  ⟨rfl, rfl, rfl, rfl, rfl⟩

theorem test_meets_RefusedCommandsWriteNothing :
    (waiting [.command 0x07000000#32]).inputs = .command 0x07000000#32 :: [] := rfl

theorem test_meets_SetmodeAndSetpadStoreTheCode : (inPhase .build).mpe.phase = .build := rfl

/-- 254 and 255 bytes. -/
theorem test_meets_PushkeyAndPushivAppendTheByte :
    (inPhase .build).mpe.phase = .build ∧ (List.replicate 254 0#8).length < 255 ∧
    255 ≤ (List.replicate 255 0#8).length :=
  ⟨rfl, by rw [List.length_replicate]; omega, by rw [List.length_replicate]⟩

theorem test_meets_LockSealsTheConfiguration : (inPhase .build).mpe.phase = .build := rfl

theorem test_meets_ClearReachesTheResetState :
    (inPhase .build).mpe.phase = .build ∧ (inPhase .ready).mpe.phase = .ready ∧ busy (inPhase .unpad).mpe.phase = true ∧
    (waiting [.assertReset]).inputs = .assertReset :: [] := ⟨rfl, rfl, rfl, rfl⟩

theorem test_meets_ConfigurationCommandsReachConfigured :
    let l := [Instr.setmode 9, .pushkey 1, .setmode 1, .pushiv 7, .setpad 4, .pushkey 2]
    (∀ i ∈ l, ∃ b : Byte, i = .setmode b ∨ i = .setpad b ∨ i = .pushkey b ∨ i = .pushiv b) ∧
    (l.filterMap setmodeOperand).getLast? = some 1 ∧ (l.filterMap setpadOperand).getLast? = some 4 ∧
    l.filterMap pushkeyOperand = [1, 2] ∧ l.filterMap pushivOperand = [7] := by
  refine ⟨?_, by decide, by decide, by decide, by decide⟩
  simp

theorem test_meets_SealedConfigurationIsImmutable :
    step { inPhase .ready with inputs := [.command 0x01000001#32] } =
      .next { inPhase .ready with resps := [0x84000000#32] } ∧
    (inPhase .ready).mpe.phase ≠ .build := ⟨rfl, by decide⟩

/-- A sealed machine that holds these output bytes. -/
def withOut (out : Bytes) : State := { State.reset with mpe := { (inPhase .ready).mpe with out := out } }

theorem test_meets_PushdAndClrd : (inPhase .ready).mpe.phase = .ready := rfl

theorem test_meets_PopdReturnsAndRemovesTheFirstByte :
    (withOut [1, 2]).mpe.phase = .ready ∧ (withOut [1, 2]).mpe.out = 1 :: [2] ∧ (withOut []).mpe.out = [] :=
  ⟨rfl, rfl, rfl⟩

theorem test_meets_PoppingEverythingReturnsTheWholeResult :
    let s := { withOut [1, 2] with inputs := [.command 0x0C000000#32, .command 0x0C000000#32, .engineTurn] }
    s.mpe.phase = .ready ∧ s.inputs = presentAll (List.replicate s.mpe.out.length .popd) ++ [.engineTurn] :=
  ⟨rfl, rfl⟩

/-- Sealed machines of the invariant with no data, whatever the key, the mode and the padding code. -/
def keyed (mode pad : Byte) (k : Bytes) : State :=
  { State.reset with mpe := { (inPhase .ready).mpe with mode := mode, pad := pad, key := k } }

theorem keyed_inv (mode pad : Byte) {k : Bytes} (h : k.length ≤ 255) : (keyed mode pad k).Inv :=
  inv_of_ready rfl (by simp [keyed, inPhase, State.reset, Mpe.reset]) (by simp [keyed, inPhase, State.reset, Mpe.reset]) h
    (by simp [keyed, inPhase, State.reset, Mpe.reset]) (by simp [keyed, inPhase, State.reset, Mpe.reset])
    (by simp [keyed, inPhase, State.reset, Mpe.reset]) (by simp [keyed, inPhase, State.reset, Mpe.reset])
    (by simp [keyed, inPhase, State.reset, Mpe.reset])

theorem test_meets_RdcfgAndRdklenReturnTheConfiguration : (keyed 1 4 []).mpe.key.length ≤ 255 ∧
    (keyed 1 4 (List.replicate 255 0)).mpe.key.length ≤ 255 :=
  ⟨by decide, Nat.le_of_eq List.length_replicate⟩

theorem test_meets_RdilenRdolenRdbsRdblkReturnTheCounts : State.reset.Inv ∧ (keyed 1 4 []).Inv :=
  ⟨inv_reset _, keyed_inv 1 4 (by decide)⟩

/-- Two machines that differ in a key byte. -/
theorem test_meets_HiddenBytesDoNotShow :
    (keyed 1 4 [0]).Inv ∧ (keyed 1 4 [1]).Inv ∧ (keyed 1 4 [0]).mpe.view = (keyed 1 4 [1]).mpe.view :=
  ⟨keyed_inv 1 4 (by decide), keyed_inv 1 4 (by decide), rfl⟩

theorem test_meets_EncAndDecStartOrReportTheFirstViolation : (keyed 1 4 []).mpe.phase = .ready := rfl

/-! The statements about any parameters, met by the toy adapter. -/

theorem toy_valid : (toy 8).Valid := by unfold Params.Valid; decide

theorem ready8_inv (mode pad : Byte) {data : Bytes} (h : data.length ≤ 1024) : (ready8 mode pad data).Inv (toy 8) :=
  inv_of_ready rfl rfl rfl (show k8.length ≤ 255 by decide) (show iv8.length ≤ 255 by decide) h
    (by simp [ready8, configured, Mpe.reset]) (by simp [ready8, configured, Mpe.reset])
    (by simp [ready8, configured, Mpe.reset])

theorem after_inv (c : Instr) (n : Nat) {m : Mpe} (h : m.Inv (toy 8)) : (after c n m).Inv (toy 8) := by
  unfold after
  induction n with
  | zero => exact inv_cmd toy_valid c h
  | succ n ih =>
    rw [Function.iterate_succ_apply']
    exact inv_turn toy_valid ih

/-- PAD, RUN and UNPAD. -/
theorem test_meets_EngineIsEnabledExactlyWhenBusy :
    (toy 8).Valid ∧ (after .enc 0 (ready8 1 4 [1])).Inv (toy 8) ∧ (after .enc 0 (ready8 1 4 [1])).phase = .pad ∧
    (after .enc 1 (ready8 1 4 [1])).Inv (toy 8) ∧ (after .enc 1 (ready8 1 4 [1])).phase = .run ∧
    (after .dec 2 (ready8 1 4 (pbytes 8))).Inv (toy 8) ∧ (after .dec 2 (ready8 1 4 (pbytes 8))).phase = .unpad :=
  ⟨toy_valid, after_inv _ _ (ready8_inv 1 4 (by decide)), by decide, after_inv _ _ (ready8_inv 1 4 (by decide)), by decide,
    after_inv _ _ (ready8_inv 1 4 (by decide)), by decide⟩

/-- Each padding code, on an aligned and on an empty buffer. -/
theorem test_meets_PadStepAppliesThePadding : ∀ p ∈ [1#8, 2#8, 3#8, 4#8], ∀ data ∈ [[], pbytes 8],
    (after .enc 0 (ready8 1 p data)).Inv (toy 8) ∧ (after .enc 0 (ready8 1 p data)).phase = .pad ∧
    (after .enc 0 (ready8 1 p data)).pad = p := by
  intro p hp data hd
  have hl : data.length ≤ 1024 := by
    simp only [List.mem_cons, List.not_mem_nil, or_false] at hd
    rcases hd with rfl | rfl <;> decide
  refine ⟨after_inv _ _ (ready8_inv 1 p hl), ?_⟩
  revert p data
  decide

/-- A machine in UNPAD that holds these output bytes. -/
def unpad8 (pad : Byte) (out : Bytes) : Mpe := { ready8 1 pad [] with phase := .unpad, out := out, dir := .decrypt }

/-- Each clause; the last byte 1, `B` and `len(OUT)`, and 0, `B + 1`, `len(OUT) + 1` and none. -/
theorem test_meets_UnpadStepRemovesThePadding :
    (unpad8 1 []).phase = .unpad ∧ (unpad8 1 []).pad = 1 ∧
    ((unpad8 2 [5, 0, 0]).out = [5] ++ List.replicate 2 0#8 ∧ [5#8].getLast? ≠ some 0#8) ∧
    ((unpad8 3 [9, 1]).out.getLast? = some 1 ∧ (unpad8 3 [9, 1]).pad = 3) ∧
    ((unpad8 4 (List.replicate 8 8)).out.getLast? = some 8 ∧ 8 ≤ (toy 8).B ∧
      8 ≤ (unpad8 4 (List.replicate 8 8)).out.length) ∧
    (unpad8 4 []).out = [] ∧ (unpad8 4 [7, 0]).out.getLast? = some 0 ∧
    ((unpad8 3 [9]).out.getLast? = some 9 ∧ 8 < 9) ∧
    ((unpad8 4 [1, 3]).out.getLast? = some 3 ∧ (unpad8 4 [1, 3]).out.length < 3) := by decide

theorem test_meets_EndOfRunGoesToUnpadOrCompletes :
    let d := after .dec 1 (ready8 1 4 (pbytes 8))
    let e := after .enc 2 (ready8 1 4 [])
    (d.phase = .run ∧ ¬(d.blk < d.nblk) ∧ d.dir = .decrypt ∧ inBlockMode d) ∧
    (e.phase = .run ∧ ¬(e.blk < e.nblk) ∧ ¬(e.dir = .decrypt ∧ inBlockMode e)) := by decide

/-- CBC and ECB, both directions, one whole block left. -/
theorem test_meets_CbcAndEcbSteps :
    ∀ mode ∈ [1#8, 2#8], ∀ m ∈ [after .enc 1 (ready8 mode 4 []), after .dec 0 (ready8 mode 1 (pbytes 8))],
      m.phase = .run ∧ m.blk < m.nblk ∧ m.mode = mode ∧ m.fb.length = (toy 8).B ∧ (toy 8).B ≤ m.inp.length := by decide

/-- CFB, OFB and CTR, both directions, a whole segment and one byte. -/
theorem test_meets_StreamSteps : ∀ mode ∈ [3#8, 4#8, 5#8], ∀ c ∈ [Instr.enc, .dec], ∀ data ∈ [pbytes 8, pbytes 1],
    (after c 0 (ready8 mode 1 data)).phase = .run ∧
    (after c 0 (ready8 mode 1 data)).blk < (after c 0 (ready8 mode 1 data)).nblk ∧
    (after c 0 (ready8 mode 1 data)).mode = mode ∧ (after c 0 (ready8 mode 1 data)).fb.length = (toy 8).B := by decide

/-- The block sizes 1 and 255, and 8 for PKCS5. -/
theorem test_meets_PaddingStatements : (1 ≤ 1 ∧ 1 ≤ 255) ∧ (1 ≤ 255 ∧ 255 ≤ 255) ∧ (1 ≤ 8 ∧ 8 ≤ 255) ∧ 16 % 8 = 0 := by decide

theorem test_meets_RemovePkcs7ReadsTheLastByte :
    ([9, 0] : Bytes).getLast? = some 0#8 ∧ ([1, 1, 3] : Bytes).getLast? = some 3#8 ∧
    (9#8).toNat > 8 ∧ ([2] : Bytes).length < (2#8).toNat := by decide

theorem test_meets_ModesKeepTheLength : (toy 8).Valid ∧ iv8.length = (toy 8).B ∧ (pbytes 16).length % (toy 8).B = 0 :=
  ⟨toy_valid, by decide, by decide⟩

/-- Two equal blocks. -/
theorem test_meets_EcbIsDeterministicPerBlock :
    let s := pbytes 8 ++ pbytes 8
    s.length % (toy 8).B = 0 ∧ 1 < s.length / (toy 8).B ∧ (s.drop (0 * 8)).take 8 = (s.drop (1 * 8)).take 8 := by decide

/-- The last, short block. -/
theorem test_meets_CtrKeystreamIsTheIvPlusTheBlockNumber : iv8.length = (toy 8).B ∧ 1 * (toy 8).B < (pbytes 9).length := by decide

theorem test_meets_StreamModesRoundTrip : (toy 8).Valid ∧ iv8.length = (toy 8).B ∧ blockMode .cfb = false :=
  ⟨toy_valid, by decide, rfl⟩

/-- An adapter that complements every byte. -/
def complementing : Params where
  B := 8
  nmax := 64
  keyOk k := decide (k.length = 8)
  E _ x := ⟨(x.toArray.toList.map fun b => ~~~b).toArray, by simp⟩
  D _ x := ⟨(x.toArray.toList.map fun b => ~~~b).toArray, by simp⟩

theorem test_meets_BlockModesRoundTripUnderAdapterInverse :
    complementing.Valid ∧ complementing.AdapterInverse ∧ complementing.keyOk k8 = true ∧
    encryptRef complementing 1 2 k8 (List.replicate 8 0) [5] = .ok [0xFA, 0xFF, 0xFF, 0xFF, 0xFF, 0xFF, 0xFF, 0xFF] := by
  refine ⟨by unfold Params.Valid; decide, ?_, by decide, by decide⟩
  intro k _ x
  simp only [complementing, List.map_map, Function.comp_def, BitVec.not_not, List.map_id']
  rfl

/-- A whole transformation that ends in an error, and, for any key the adapter accepts, one that is started. -/
theorem test_meets_EncAgreesWithEncrypt :
    (keyed 0 0 []).Inv ∧ (keyed 0 0 []).mpe.phase = .ready ∧ (keyed 0 0 []).inputs = [] ∧
    exec .enc (keyed 0 0 []) =
      .next { keyed 0 0 [] with mpe := fail Config.params .unsupportedMode (keyed 0 0 []).mpe, resps := [1#32] } ∧
    exec .dec (keyed 0 0 []) =
      .next
        { keyed 0 0 [] with
          mpe := { fail Config.params .unsupportedMode (keyed 0 0 []).mpe with dir := .decrypt }, resps := [1#32] } :=
  ⟨keyed_inv 0 0 (by decide), rfl, rfl, rfl, rfl⟩

/-- ECB, no padding, no data: a key the adapter accepts is all a transformation needs to start. The model's adapter is
unknown, so the key is a hypothesis. -/
def started (k : Bytes) : State :=
  { State.reset with mpe := { (keyed 2 1 k).mpe with phase := .pad }, resps := [0#32] }

theorem exec_keyed {k : Bytes} (hk : Config.params.keyOk k = true) : exec .enc (keyed 2 1 k) = .next (started k) := by
  have hs : startError Config.params .encrypt (keyed 2 1 k).mpe = none :=
    (startError_eq_none _ _ _).mpr
      ⟨⟨.inl (.inr rfl), .inl rfl, hk, .inl rfl, .inl (show (1#8) ≠ 3#8 by decide)⟩, fun _ _ => Nat.zero_mod _⟩
  rw [exec_eq]
  simp only [cmdOf, cmdEnc]
  show Host.Outcome.next ((keyed 2 1 k).reply (start Config.params .encrypt (keyed 2 1 k).mpe)) = _
  unfold start
  rw [hs]
  rfl

theorem started_inv {k : Bytes} (h : k.length ≤ 255) (hk : Config.params.keyOk k = true) : (started k).Inv := by
  have := inv_cmd config_valid .enc (keyed_inv 2 1 h)
  have he := exec_keyed hk
  rw [exec_eq] at he
  simp only [Host.Outcome.next.injEq] at he
  rw [← he]
  exact this

/-- ECB, no data, a decryption started: no block is to be done. -/
def decStarted (pad : Byte) (k : Bytes) : State :=
  { State.reset with mpe := { (keyed 2 pad k).mpe with dir := .decrypt, phase := .run }, resps := [0#32] }

theorem exec_dec_keyed {pad : Byte} {k : Bytes} (hp : pad = 1 ∨ pad = 4) (hk : Config.params.keyOk k = true) :
    exec .dec (keyed 2 pad k) = .next (decStarted pad k) := by
  have hs : startError Config.params .decrypt (keyed 2 pad k).mpe = none :=
    (startError_eq_none _ _ _).mpr
      ⟨⟨.inl (.inr rfl), by rcases hp with rfl | rfl <;> simp [keyed], hk, .inl rfl,
        by rcases hp with rfl | rfl <;> simp [keyed]⟩, fun _ _ => Nat.zero_mod _⟩
  have hc : ceilDiv (keyed 2 pad k).mpe.inp.length Config.params.B = 0 := ceilDiv_zero_left _ (valid_pos config_valid)
  rw [exec_eq]
  simp only [cmdOf, cmdDec]
  show Host.Outcome.next ((keyed 2 pad k).reply (start Config.params .decrypt (keyed 2 pad k).mpe)) = _
  unfold start
  rw [hs]
  simp only [hc]
  rfl

theorem decStarted_inv {pad : Byte} {k : Bytes} (hp : pad = 1 ∨ pad = 4) (h : k.length ≤ 255)
    (hk : Config.params.keyOk k = true) : (decStarted pad k).Inv := by
  have hi := inv_cmd config_valid .dec (keyed_inv 2 pad h)
  have he := exec_dec_keyed hp hk
  rw [exec_eq] at he
  simp only [Host.Outcome.next.injEq] at he
  rw [← he]
  exact hi

/-- The machine of a started decryption after its end-of-RUN step. -/
def decUnpad (pad : Byte) (k : Bytes) : State :=
  { decStarted pad k with mpe := { (decStarted pad k).mpe with phase := .unpad } }

theorem decUnpad_inv {pad : Byte} {k : Bytes} (hp : pad = 1 ∨ pad = 4) (h : k.length ≤ 255)
    (hk : Config.params.keyOk k = true) : (decUnpad pad k).Inv :=
  inv_engine config_valid (decStarted_inv hp h hk)
    (show engineStep Config.params (decStarted pad k).mpe = .stepped (decUnpad pad k).mpe [] from rfl)

/-- Runs of the machine that succeed: an encryption and a decryption of no data are started, and the decryption ends with
`DONE` set (R145, R171). -/
theorem test_meets_EncAndDecAgree_ok {k : Bytes} (h : k.length ≤ 255) (hk : Config.params.keyOk k = true) :
    (keyed 2 1 k).Inv ∧ (keyed 2 1 k).mpe.phase = .ready ∧ (keyed 2 1 k).inputs = [] ∧
    exec .enc (keyed 2 1 k) = .next (started k) ∧ exec .dec (keyed 2 1 k) = .next (decStarted 1 k) ∧
    runSteps 2 (decStarted 1 k) =
      .next { decStarted 1 k with mpe := { (decStarted 1 k).mpe with done := true, phase := .ready } } :=
  ⟨keyed_inv 2 1 h, rfl, rfl, exec_keyed hk, exec_dec_keyed (.inl rfl) hk, rfl⟩

theorem test_meets_TransformationsTakeTheStatedNumberOfSteps {k : Bytes} (h : k.length ≤ 255)
    (hk : Config.params.keyOk k = true) :
    (keyed 2 1 k).Inv ∧ (keyed 2 1 k).mpe.phase = .ready ∧ (keyed 2 1 k).inputs = [] ∧
    exec .enc (keyed 2 1 k) = .next (started k) ∧ busy (started k).mpe.phase = true :=
  ⟨keyed_inv 2 1 h, rfl, rfl, exec_keyed hk, rfl⟩

/-- Enough turns, with a read and a refused command before them. -/
theorem test_meets_InterleavingDoesNotChangeTheResult {k : Bytes} (h : k.length ≤ 255) (hk : Config.params.keyOk k = true) :
    let n := ceilDiv Config.params.nmax Config.params.B + 3
    let l := .command 0x10000000#32 :: .command 0x07000000#32 :: List.replicate n Input.engineTurn
    (started k).Inv ∧ busy (started k).mpe.phase = true ∧ (∀ e ∈ l, e.undisturbing = true) ∧ n ≤ l.count .engineTurn := by
  refine ⟨started_inv h hk, rfl, ?_, ?_⟩
  · intro e he
    simp only [List.mem_cons, List.mem_replicate] at he
    rcases he with rfl | rfl | ⟨-, rfl⟩ <;> decide
  · simp

/-- Two machines that differ in what OUT holds. -/
theorem test_meets_TransformationsAreRepeatable :
    (keyed 0 0 [1]).Inv ∧ exec .enc (keyed 0 0 [1]) =
      .next { keyed 0 0 [1] with mpe := fail Config.params .unsupportedMode (keyed 0 0 [1]).mpe, resps := [1#32] } ∧
    exec .enc { keyed 0 0 [1] with resps := [5#32] } =
      .next { keyed 0 0 [1] with mpe := fail Config.params .unsupportedMode (keyed 0 0 [1]).mpe, resps := [5#32, 1#32] } :=
  ⟨keyed_inv 0 0 (by decide), rfl, rfl⟩

theorem test_meets_EveryStepKeepsTheInvariant : State.reset.Inv ∧ step State.reset = .next State.reset :=
  ⟨inv_reset _, rfl⟩

/-- A block step of a decryption, and an end-of-RUN step. -/
theorem test_meets_AdapterCallsFollowValidation :
    let m := after .dec 0 (ready8 1 4 (pbytes 8))
    let m' := after .dec 1 (ready8 1 4 (pbytes 8))
    m.Inv (toy 8) ∧ m'.Inv (toy 8) ∧ m.phase = .run ∧ m.blk < m.nblk ∧ ¬(m'.blk < m'.nblk) ∧
    engineStep (toy 8) m = .stepped m' [⟨.D, pbytes 8⟩] ∧ engineStep (toy 8) m' = .stepped { m' with phase := .unpad } [] :=
  ⟨after_inv _ _ (ready8_inv 1 4 (by decide)), after_inv _ _ (ready8_inv 1 4 (by decide)), by decide, by decide, by decide,
    by decide, by decide⟩

/-- A machine that holds an error and is asked for its status. -/
def failed : State :=
  { State.reset with mpe := fail Config.params .invalidKeyLength (keyed 1 1 []).mpe, inputs := [.command 0x10000000#32] }

theorem test_meets_ErrorsStayUntilCleared :
    failed.Inv ∧ step failed = .next { failed with inputs := [], resps := [0x301#32] } ∧
    failed.mpe.err = some .invalidKeyLength :=
  ⟨inv_fail _ (by decide) (by decide), rfl, rfl⟩

/-- The end-of-RUN step of an encryption of no data. -/
theorem test_meets_TransformationsEndCompleteOrEmpty {k : Bytes} (h : k.length ≤ 255) (hk : Config.params.keyOk k = true) :
    let s := { started k with mpe := { (started k).mpe with phase := .run } }
    s.Inv ∧ step s = .next { s with mpe := { s.mpe with done := true, phase := .ready } } ∧
    busy s.mpe.phase = true := by
  refine ⟨?_, rfl, rfl⟩
  have hs := started_inv h hk
  have he : engineStep Config.params (started k).mpe = .stepped { (started k).mpe with phase := .run } [] := by
    have hB := valid_pos config_valid
    have : ceilDiv 0 Config.params.B = 0 := by unfold ceilDiv; rw [Nat.zero_add, Nat.div_eq_of_lt (by omega)]
    show padStep Config.params (started k).mpe = _
    show EngineResult.stepped { (started k).mpe with nblk := count24 (ceilDiv 0 Config.params.B), phase := .run } [] = _
    rw [this]
    rfl
  exact inv_engine config_valid hs he

/-- The failing end: the UNPAD step of a decryption of no data under PKCS7 (R167, R171). -/
theorem test_meets_TransformationsEndCompleteOrEmpty_failed {k : Bytes} (h : k.length ≤ 255)
    (hk : Config.params.keyOk k = true) :
    (decUnpad 4 k).Inv ∧ busy (decUnpad 4 k).mpe.phase = true ∧
    step (decUnpad 4 k) =
      .next { decUnpad 4 k with mpe := { (decUnpad 4 k).mpe with err := some .invalidPadding, phase := .ready } } :=
  ⟨decUnpad_inv (.inr rfl) h hk, rfl, rfl⟩

end Sys2Proof.Tests
end

section
/-! PROOFS. The scope of the machine (spec 00_scope.md R8, R10, R11): whose turn a step is, and which engine steps call the
adapter. -/

namespace Sys2Proof.Machine

/-! ### Whose turn a step is -/

theorem present_of_instr {w : Word} {i : Instr} (s : State) (h : decode w = .instr i) : present w s = exec i s := by
  simp [present, h]

theorem engineTurn_of_idle {s : State} (h : engineStep Config.params s.mpe = .idle) : engineTurn s = .next s := by
  simp [engineTurn, h]

theorem engineTurn_of_stepped {s : State} {m : Mpe} {calls : List AdapterCall}
    (h : engineStep Config.params s.mpe = .stepped m calls) :
    engineTurn s = .next { s with mpe := m, atrace := s.atrace ++ calls } := by
  simp [engineTurn, h]

/-- The step is the engine's when it is given a turn and when the host is silent (R8, R270). -/
theorem step_of_turn {s : State} {rest : List Input}
    (h : s.inputs = .engineTurn :: rest ∨ s.inputs = [] ∧ rest = []) :
    step s = engineTurn { s with inputs := rest } := by
  rcases h with hturn | ⟨hnil, rfl⟩
  · exact step_of_engineTurn hturn
  · have hs : { s with inputs := [] } = s := by rw [← hnil]
    rw [hs, step_of_nil hnil]

/-- Settles O5: the word's decoding picks the arm of `present`. -/
theorem stepRunsThePresentedCommand : Obligations.StepRunsThePresentedCommand := by
  intro s w rest i hin hdec
  rw [step_of_command hin, present_of_instr _ hdec]

/-- Settles O7: a given turn and a silent host are one case, the engine's turn. -/
theorem engineTakesItsTurn : Obligations.EngineTakesItsTurn := by
  intro s rest hin
  rw [step_of_turn hin]
  exact ⟨fun hidle => engineTurn_of_idle hidle, fun _ _ hstep => engineTurn_of_stepped hstep⟩

/-! ### The steps that call no adapter -/

section NoCalls
variable {P : Params} {m m' : Mpe} {calls : List AdapterCall}

theorem padStep_calls (h : padStep P m = .stepped m' calls) : calls = [] := by
  unfold padStep at h
  split at h <;> cases h
  rfl

theorem unpadStep_calls (h : unpadStep P m = .stepped m' calls) : calls = [] := by
  unfold unpadStep at h
  split at h
  · cases h
  · split at h <;> cases h <;> rfl

theorem endOfRunStep_calls (h : endOfRunStep m = .stepped m' calls) : calls = [] := by
  unfold endOfRunStep at h
  split at h <;> cases h <;> rfl

/-- Only a RUN block step can call the adapter (R10), whatever the state. -/
theorem engineStep_calls_nil (h : engineStep P m = .stepped m' calls) (hnb : ¬(m.phase = .run ∧ m.blk < m.nblk)) :
    calls = [] := by
  cases hp : m.phase with
  | build => rw [engineStep_idle_iff.mpr (.inl hp)] at h; cases h
  | ready => rw [engineStep_idle_iff.mpr (.inr hp)] at h; cases h
  | pad => exact padStep_calls (engineStep_pad hp ▸ h)
  | run => exact endOfRunStep_calls (engineStep_end hp (fun hb => hnb ⟨hp, hb⟩) ▸ h)
  | unpad => exact unpadStep_calls (engineStep_unpad hp ▸ h)

end NoCalls

/-- Settles O54: the invariant gives a block step its good configuration and the shape `BlockShape` of its one call; the
other steps of the engine call no adapter. -/
theorem adapterCallsFollowValidation : Obligations.AdapterCallsFollowValidation := by
  intro P m m' calls _ hI hstep
  refine ⟨?_, engineStep_calls_nil hstep⟩
  rintro ⟨hp, hb⟩
  obtain ⟨_, _, _, c, hshape, _, _, _, hlen, hop, hstream⟩ := block_shape hI hp hb
  rw [hstep] at hshape
  cases hshape
  exact ⟨hI.busy_config (by rw [hp]; rfl), c, rfl, hlen, hop, hstream⟩

end Sys2Proof.Machine
end

section
/-! PROOFS. The state of the machine (spec 10_state.md R30 to R41): its reset values, what a step makes of the MPE, the
invariant, the STATUS view, what the host can see, and how errors and transformations end. -/

namespace Sys2Proof.Machine

/-! ### What a step makes of the MPE -/

/-- What a presented word makes of the MPE: a command's result, or nothing when it is no command (R83). -/
theorem present_mpe {w : Word} {s t : State} (h : present w s = .next t) :
    (∃ i, decode w = .instr i ∧ t.mpe = (cmdOf Config.params i s.mpe).1) ∨ t.mpe = s.mpe := by
  rw [present_eq] at h
  cases h
  cases hd : decode w with
  | instr i => exact .inl ⟨i, rfl, rfl⟩
  | illegal => exact .inr rfl
  | operand => exact .inr rfl

/-- All a step can make of the MPE: nothing, an engine step, a command's result, or the reset values. -/
theorem step_mpe_cases {s t : State} (h : step s = .next t) :
    t.mpe = s.mpe ∨
    (∃ calls, engineStep Config.params s.mpe = .stepped t.mpe calls) ∨
    (∃ w i, s.inputs.head? = some (.command w) ∧ decode w = .instr i ∧
      t.mpe = (cmdOf Config.params i s.mpe).1) ∨
    (s.inputs.head? = some .assertReset ∧ t.mpe = Mpe.reset Config.params) := by
  rcases step_cases h with ⟨rest, -, hturn⟩ | ⟨w, rest, hin, hword⟩ | ⟨rest, hin, rfl⟩
  · rcases engineTurn_cases hturn with ⟨-, rfl⟩ | ⟨m, calls, hstep, rfl⟩
    · exact .inl rfl
    · exact .inr (.inl ⟨calls, hstep⟩)
  · rcases present_mpe hword with ⟨i, hdec, hmpe⟩ | hmpe
    · exact .inr (.inr (.inl ⟨w, i, by rw [hin]; rfl, hdec, hmpe⟩))
    · exact .inl hmpe
  · exact .inr (.inr (.inr ⟨by rw [hin]; rfl, rfl⟩))

/-- What holds of the MPE, and of what a gated command makes of it when accepted, holds after the command. -/
theorem gated_fst {p : Mpe → Prop} {c : CmdClass} {m : Mpe} {acc : Mpe × Word} (hm : p m) (hacc : p acc.1) :
    p (gated c m acc).1 := by
  rcases gated_cases c m acc with ⟨r, -, h⟩ | ⟨-, h⟩ <;> rw [h]
  · exact hm
  · exact hacc

/-! ### The invariant and reset -/

/-- Settles O52: whatever a step makes of the MPE (`step_mpe_cases`) meets the invariant. -/
theorem everyStepKeepsTheInvariant : Obligations.EveryStepKeepsTheInvariant := by
  intro s t hI h
  show t.mpe.Inv Config.params
  rcases step_mpe_cases h with hsame | ⟨calls, hstep⟩ | ⟨w, i, -, -, hcmd⟩ | ⟨-, hreset⟩
  · rw [hsame]
    exact hI
  · exact inv_engine config_valid hI hstep
  · rw [hcmd]
    exact inv_cmd config_valid i hI
  · rw [hreset]
    exact inv_reset _

/-- Settles O53: words and reset always answer, and so does the engine in a state of the invariant. -/
theorem noStepStopsInTheInvariant : Obligations.NoStepStopsInTheInvariant := by
  intro s hI
  cases hin : s.inputs with
  | nil => exact ⟨_, (step_of_nil hin).trans (engineTurn_eq hI)⟩
  | cons e rest =>
    cases e with
    | command w => exact ⟨_, (step_of_command hin).trans (present_eq w _)⟩
    | engineTurn => exact ⟨_, (step_of_engineTurn hin).trans (engineTurn_eq (s := { s with inputs := rest }) hI)⟩
    | assertReset => exact ⟨_, step_of_assertReset hin⟩

/-- Settles O28: the engine's dispatch, and its progress in the invariant. -/
theorem engineIsEnabledExactlyWhenBusy : Obligations.EngineIsEnabledExactlyWhenBusy :=
  fun _ _ => ⟨engineStep_idle_iff, engine_progress⟩

/-- Settles O51: the reset values meet the invariant. -/
theorem resetMeetsTheInvariant : Obligations.ResetMeetsTheInvariant := inv_reset Config.params

/-- Settles O9: no event waits in the reset state, so its step is a turn of the idle engine. -/
theorem resetStateHoldsTheResetValues : Obligations.ResetStateHoldsTheResetValues := by
  have hidle : engineStep Config.params State.reset.mpe = .idle := engineStep_idle_iff.mpr (.inl rfl)
  exact ⟨rfl, (step_of_nil rfl).trans (engineTurn_of_idle hidle)⟩

/-! ### The STATUS view -/

/-- A field put below another one: the upper field counts in units of the lower one's range. -/
theorem toNat_append_eq_add {a b : Nat} (x : BitVec a) (y : BitVec b) :
    (x ++ y).toNat = x.toNat * 2 ^ b + y.toNat := by
  rw [BitVec.toNat_append, ← Nat.shiftLeft_add_eq_or_of_lt y.isLt, Nat.shiftLeft_eq]

/-- The STATUS view as a number: its four fields at their bit positions (R35). -/
theorem statusView_toNat (m : Mpe) :
    (statusView m).toNat =
      (phaseCode m.phase).toNat + 8 * (doneBit m.done).toNat + 16 * (dirBit m.dir).toNat +
        256 * (errCode m.err).toNat := by
  simp only [statusView, toNat_append_eq_add, BitVec.toNat_zero]
  omega

/-- Settles O23: RDSTAT's response is the STATUS view, whose fields hold the codes of R36, R31, R30 and R230. -/
theorem rdstatReturnsTheStatusWord : Obligations.RdstatReturnsTheStatusWord := by
  intro s
  refine ⟨ackWord (statusView s.mpe), exec_eq .rdstat s, ?_⟩
  rw [ackWord_toNat, statusView_toNat]
  congr 1
  · congr 1
    · congr 1
      · cases s.mpe.phase <;> rfl
      · cases s.mpe.done <;> rfl
    · cases s.mpe.dir <;> rfl
  · cases s.mpe.err with
    | none => rfl
    | some e => cases e <;> rfl

/-! ### What the host can see -/

/-- Two MPEs hold the same in everything the host can observe (R37). -/
structure LookAlike (m m' : Mpe) : Prop where
  phase : m.phase = m'.phase
  done : m.done = m'.done
  dir : m.dir = m'.dir
  err : m.err = m'.err
  mode : m.mode = m'.mode
  pad : m.pad = m'.pad
  keyLen : m.key.length = m'.key.length
  ivLen : m.iv.length = m'.iv.length
  inLen : m.inp.length = m'.inp.length
  outLen : m.out.length = m'.out.length
  blk : m.blk = m'.blk
  readyOut : m.phase = .ready → m.out = m'.out

/-- `LookAlike` is equality of the views. -/
theorem view_eq_iff {m m' : Mpe} : m.view = m'.view ↔ LookAlike m m' := by
  simp only [Mpe.view, View.mk.injEq]
  constructor
  · rintro ⟨hp, h2, h3, h4, h5, h6, h7, h8, h9, h10, h11, hout⟩
    refine ⟨hp, h2, h3, h4, h5, h6, h7, h8, h9, h10, h11, fun hr => ?_⟩
    rwa [if_pos hr, if_pos (hp ▸ hr)] at hout
  · rintro ⟨hp, h2, h3, h4, h5, h6, h7, h8, h9, h10, h11, hout⟩
    refine ⟨hp, h2, h3, h4, h5, h6, h7, h8, h9, h10, h11, ?_⟩
    by_cases hr : m.phase = .ready
    · rw [if_pos hr, if_pos (hp ▸ hr), hout hr]
    · rw [if_neg hr, if_neg (hp ▸ hr)]

/-- Two results of a command that the host cannot tell apart: MPEs that look alike, and one response. -/
def SameAnswer (r r' : Mpe × Word) : Prop := LookAlike r.1 r'.1 ∧ r.2 = r'.2

theorem statusView_eq {m m' : Mpe} (h : LookAlike m m') : statusView m = statusView m' := by
  simp only [statusView, h.err, h.dir, h.done, h.phase]

/-- The phase check sees only `PHASE`, so a gated command answers alike when its accepted results do. -/
theorem sameAnswer_gated {c : CmdClass} {m m' : Mpe} {acc acc' : Mpe × Word} (h : LookAlike m m')
    (hacc : phaseCheck c m.phase = none → SameAnswer acc acc') :
    SameAnswer (gated c m acc) (gated c m' acc') := by
  rcases gated_cases c m acc with ⟨r, hr, heq⟩ | ⟨hr, heq⟩
  · rw [heq, gated_of_refused acc' (h.phase ▸ hr)]
    exact ⟨h, rfl⟩
  · rw [heq, gated_of_accepted acc' (h.phase ▸ hr)]
    exact hacc hr

/-- A buffer bound is a test of a length, so it turns out alike. -/
theorem sameAnswer_ite {n n' k : Nat} {a a' b b' : Mpe × Word} (hn : n = n') (ha : SameAnswer a a')
    (hb : SameAnswer b b') : SameAnswer (if n < k then a else b) (if n' < k then a' else b') := by
  subst hn
  split
  · exact ha
  · exact hb

/-- In the invariant every command but ENC and DEC answers by what the host can see alone (R37). -/
theorem cmdOf_sameAnswer {P : Params} {m m' : Mpe} (i : Instr) (hI : m.Inv P) (hI' : m'.Inv P) (h : LookAlike m m')
    (henc : i ≠ .enc) (hdec : i ≠ .dec) : SameAnswer (cmdOf P i m) (cmdOf P i m') := by
  have hfull : SameAnswer (m, nakWord .full) (m', nakWord .full) := ⟨h, rfl⟩
  have hread : ∀ {p p' : BitVec 24}, p = p' → SameAnswer (cmdRead p m) (cmdRead p' m') :=
    fun hp => ⟨h, congrArg ackWord hp⟩
  cases i
  case enc => exact absurd rfl henc
  case dec => exact absurd rfl hdec
  case nop => exact ⟨h, rfl⟩
  case setmode b => exact sameAnswer_gated h fun _ => ⟨{ h with mode := rfl }, rfl⟩
  case setpad b => exact sameAnswer_gated h fun _ => ⟨{ h with pad := rfl }, rfl⟩
  case pushkey b =>
    exact sameAnswer_gated h fun _ =>
      sameAnswer_ite h.keyLen ⟨{ h with keyLen := by simp [h.keyLen] }, rfl⟩ hfull
  case pushiv b =>
    exact sameAnswer_gated h fun _ => sameAnswer_ite h.ivLen ⟨{ h with ivLen := by simp [h.ivLen] }, rfl⟩ hfull
  case lock =>
    refine sameAnswer_gated h fun hc => ?_
    have hb := (phaseCheck_config _).mp hc
    obtain ⟨-, hout, -⟩ := hI.build_clean hb
    obtain ⟨-, hout', -⟩ := hI'.build_clean (h.phase ▸ hb)
    exact ⟨{ h with phase := rfl, readyOut := fun _ => hout.trans hout'.symm }, rfl⟩
  case clear =>
    exact sameAnswer_gated h fun _ => ⟨view_eq_iff.mp rfl, rfl⟩
  case pushd b =>
    exact sameAnswer_gated h fun _ => sameAnswer_ite h.inLen ⟨{ h with inLen := by simp [h.inLen] }, rfl⟩ hfull
  case clrd =>
    exact sameAnswer_gated h fun _ =>
      ⟨{ h with done := rfl, err := rfl, inLen := rfl, outLen := rfl, blk := rfl, readyOut := fun _ => rfl }, rfl⟩
  case popd =>
    refine sameAnswer_gated h fun hc => ?_
    rw [h.readyOut ((phaseCheck_data _).mp hc)]
    cases m'.out with
    | nil => exact ⟨h, rfl⟩
    | cons b rest => exact ⟨{ h with outLen := rfl, readyOut := fun _ => rfl }, rfl⟩
  case rdstat => exact hread (statusView_eq h)
  case rdcfg => exact hread (by rw [h.mode, h.pad])
  case rdilen => exact hread (by rw [h.inLen])
  case rdolen => exact hread (by rw [h.outLen])
  case rdklen => exact hread (by rw [h.keyLen, h.ivLen])
  case rdbs => exact hread rfl
  case rdblk => exact hread h.blk

/-- Settles O26: a command's reply is `cmdOf`'s, which answers by the view alone. -/
theorem hiddenBytesDoNotShow : Obligations.HiddenBytesDoNotShow := by
  intro s s' i hI hI' hview henc hdec
  obtain ⟨hlook, hresp⟩ := cmdOf_sameAnswer i hI hI' (view_eq_iff.mp hview) henc hdec
  exact ⟨_, _, _, exec_eq i s, exec_eq i s', rfl, by rw [reply_resps, hresp], view_eq_iff.mpr hlook⟩

/-! ### Errors stay -/

/-- The only word of a command without an operand is its row's `match` (R82). -/
theorem word_of_decode_z {w : Word} {i : Instr} (h : decode w = .instr i) (hz : i.mnemonic.format = .z) :
    w = i.mnemonic.pattern := by
  unfold decode at h
  split at h
  · cases h
  · rename_i n hfind
    split at h
    · rename_i hmask
      cases h
      have hn : (n.toInstr (immField w)).mnemonic = n := by cases n <;> rfl
      rw [hn] at hz ⊢
      rw [← hmask, hz]
      exact BitVec.and_allOnes.symm
    · cases h

/-- Only ENC, DEC, CLRD and CLEAR write `ERR` (R32). -/
theorem cmdOf_err (P : Params) (i : Instr) (m : Mpe) (hi : i ∉ [Instr.enc, .dec, .clrd, .clear]) :
    (cmdOf P i m).1.err = m.err := by
  have hg : ∀ {c : CmdClass} {acc : Mpe × Word}, acc.1.err = m.err → (gated c m acc).1.err = m.err :=
    gated_fst (p := fun m' => m'.err = m.err) rfl
  cases i
  case enc => exact absurd (by simp) hi
  case dec => exact absurd (by simp) hi
  case clrd => exact absurd (by simp) hi
  case clear => exact absurd (by simp) hi
  case pushkey b => exact hg (by split <;> rfl)
  case pushiv b => exact hg (by split <;> rfl)
  case pushd b => exact hg (by split <;> rfl)
  case popd => exact hg (by split <;> rfl)
  all_goals exact hg rfl

/-- Settles O55: with an error held the engine is idle, and the commands left do not write `ERR`. -/
theorem errorsStayUntilCleared : Obligations.ErrorsStayUntilCleared := by
  intro s t e hI h herr hev
  have hready : s.mpe.phase = .ready := (hI.err_ready (by simp [herr])).1
  rcases step_mpe_cases h with hsame | ⟨calls, hstep⟩ | ⟨w, i, hin, hdec, hcmd⟩ | ⟨hin, -⟩
  · rw [hsame, herr]
  · rw [engineStep_idle_iff.mpr (.inr hready)] at hstep
    cases hstep
  · have hi : i ∉ [Instr.enc, .dec, .clrd, .clear] := by
      intro hmem
      apply hev
      simp only [List.mem_cons, List.not_mem_nil, or_false] at hmem
      rcases hmem with rfl | rfl | rfl | rfl <;> rw [hin, word_of_decode_z hdec rfl] <;> decide
    rw [hcmd, cmdOf_err _ i _ hi, herr]
  · exact absurd (by simp [hin]) hev

/-! ### How a transformation ends -/

section Ends
variable {P : Params} {m m' : Mpe} {calls : List AdapterCall}

/-- With no block left in RUN, no byte is left in `IN` (R38 item 6). -/
theorem run_end_inp (hV : P.Valid) (hI : m.Inv P) (hp : m.phase = .run) (hb : ¬m.blk < m.nblk) : m.inp = [] := by
  have hleft : m.nblk.toNat - m.blk.toNat = 0 := by
    rw [BitVec.lt_def] at hb
    omega
  apply List.eq_nil_of_length_eq_zero
  rcases (hI.busy_config (by rw [hp]; rfl)).mode_named with hm | hm
  · rw [hI.run_block hp hm, hleft, Nat.zero_mul]
  · rw [← ceilDiv_eq_zero_iff _ _ (valid_pos hV), hI.run_stream hp hm, hleft]

/-- The two ways a transformation can end (R31, R238): complete, or failed with no data and no register content left. -/
def Ended (P : Params) (m : Mpe) : Prop :=
  m.inp = [] ∧
    (m.done = true ∧ m.err = none ∨
      m.done = false ∧ m.err = some .invalidPadding ∧ m.out = [] ∧ m.fb = rep P.B 0 ∧ m.ks = rep P.B 0)

/-- An UNPAD step ends the transformation (R171). -/
theorem unpadStep_ended (hI : m.Inv P) (hp : m.phase = .unpad) (h : unpadStep P m = .stepped m' calls) :
    Ended P m' := by
  have hin := (hI.unpad_block hp).2.2
  have herr := (hI.busy_clean (by rw [hp]; rfl)).2
  unfold unpadStep at h
  split at h
  · cases h
  · split at h <;> cases h
    · exact ⟨rfl, .inr ⟨rfl, rfl, rfl, rfl, rfl⟩⟩
    · exact ⟨hin, .inl ⟨rfl, herr⟩⟩

/-- An end-of-RUN step that leads to READY ends the transformation complete (R145). -/
theorem endOfRunStep_ended (hV : P.Valid) (hI : m.Inv P) (hp : m.phase = .run) (hb : ¬m.blk < m.nblk)
    (h : endOfRunStep m = .stepped m' calls) (hr : m'.phase = .ready) : Ended P m' := by
  have hin := run_end_inp hV hI hp hb
  have herr := (hI.busy_clean (by rw [hp]; rfl)).2
  unfold endOfRunStep at h
  split at h <;> cases h
  · cases hr
  · exact ⟨hin, .inl ⟨rfl, herr⟩⟩

/-- An engine step that leads to READY ends the transformation: the PAD step and the block steps lead to RUN. -/
theorem engineStep_ended (hV : P.Valid) (hI : m.Inv P) (h : engineStep P m = .stepped m' calls)
    (hr : m'.phase = .ready) : Ended P m' := by
  cases hp : m.phase with
  | build =>
    rw [engineStep_idle_iff.mpr (.inl hp)] at h
    cases h
  | ready =>
    rw [engineStep_idle_iff.mpr (.inr hp)] at h
    cases h
  | pad =>
    obtain ⟨_, _, _, _, hpad, -⟩ := pad_shape hV hI hp
    rw [h] at hpad
    cases hpad
    cases hr
  | run =>
    by_cases hb : m.blk < m.nblk
    · obtain ⟨_, _, _, _, hblock, -⟩ := block_shape hI hp hb
      rw [h] at hblock
      cases hblock
      exact absurd (hp.symm.trans hr) (by simp)
    · exact endOfRunStep_ended hV hI hp hb (engineStep_end hp hb ▸ h) hr
  | unpad => exact unpadStep_ended hI hp (engineStep_unpad hp ▸ h)

end Ends

/-- Settles O56: only an engine step can take a busy machine to READY, and it ends the transformation. -/
theorem transformationsEndCompleteOrEmpty : Obligations.TransformationsEndCompleteOrEmpty := by
  intro s t hI h hbusy hready
  have hmoved : t.mpe ≠ s.mpe := by
    intro heq
    rw [← heq, hready] at hbusy
    cases hbusy
  rcases step_mpe_cases h with hsame | ⟨calls, hstep⟩ | ⟨w, i, -, -, hcmd⟩ | ⟨-, hreset⟩
  · exact absurd hsame hmoved
  · exact engineStep_ended config_valid hI hstep hready
  · exact absurd (hcmd.trans (cmdOf_busy i hbusy)) hmoved
  · rw [hreset] at hready
    cases hready

end Sys2Proof.Machine
end

section
/-! PROOFS. The consistency model (spec 20_memory.md R64): a run in which NOP, reads and words that are no command come
between the engine's turns takes the MPE where its turns alone take it. -/

namespace Sys2Proof.Machine

/-! ### One event of the host between two turns -/

/-- NOP, a read and a word that is no command only add a response (R64, R83). -/
theorem step_of_undisturbing_command {s : State} {w : Word} {rest : List Input} (hin : s.inputs = .command w :: rest)
    (hw : (Input.command w).undisturbing = true) :
    ∃ r, step s = .next { s with inputs := rest, resps := s.resps ++ [r] } := by
  rw [step_of_command hin, present_eq]
  cases hd : decode w with
  | instr i =>
    have hobs : isObserver i = true := by simpa [Input.undisturbing, hd] using hw
    exact ⟨(cmdOf Config.params i s.mpe).2, by simp [State.reply, cmdOf_observer _ _ _ hobs]⟩
  | illegal => exact ⟨nakWord .illegal, rfl⟩
  | operand => exact ⟨nakWord .operand, rfl⟩

/-! ### A whole list of events -/

/-- A run over undisturbing events takes the MPE and the adapter calls where the turns among the events take them. -/
theorem runSteps_undisturbing (l : List Input) :
    ∀ s : State, s.Inv → (∀ e ∈ l, e.undisturbing = true) →
      ∃ u, runSteps l.length { s with inputs := l } = .next u ∧
        u.mpe = (turn Config.params)^[l.count .engineTurn] s.mpe ∧
        u.atrace = s.atrace ++ callsN Config.params (l.count .engineTurn) s.mpe := by
  induction l with
  | nil =>
    intro s _ _
    exact ⟨{ s with inputs := [] }, rfl, rfl, by simp [callsN]⟩
  | cons e rest ih =>
    intro s hI hl
    obtain ⟨he, hrest⟩ := List.forall_mem_cons.mp hl
    cases e with
    | command w =>
      obtain ⟨r, hstep⟩ := step_of_undisturbing_command (s := { s with inputs := .command w :: rest }) rfl he
      obtain ⟨u, hrun, hmpe, htrace⟩ := ih { s with resps := s.resps ++ [r] } hI hrest
      have hcount : (Input.command w :: rest).count .engineTurn = rest.count .engineTurn :=
        List.count_cons_of_ne (by simp)
      rw [hcount]
      exact ⟨u, (runSteps_succ _ hstep).trans hrun, hmpe, htrace⟩
    | engineTurn =>
      have hstep : step { s with inputs := .engineTurn :: rest } = .next { s.afterTurn with inputs := rest } :=
        (step_of_engineTurn rfl).trans (engineTurn_eq (s := { s with inputs := rest }) hI)
      obtain ⟨u, hrun, hmpe, htrace⟩ := ih s.afterTurn (inv_turn config_valid hI) hrest
      rw [List.count_cons_self]
      exact ⟨u, (runSteps_succ _ hstep).trans hrun, hmpe, htrace.trans (by simp [State.afterTurn, callsN])⟩
    | assertReset => cases he

/-! ### Where the turns of a busy engine end -/

/-- The engine does not lead back to BUILD (R40). -/
theorem turns_phase_ne_build {P : Params} (n : Nat) {m : Mpe} (h : m.phase ≠ .build) :
    ((turn P)^[n] m).phase ≠ .build := by
  refine Function.Iterate.rec (fun m' : Mpe => m'.phase ≠ .build) h (fun m' h' => ?_) n
  unfold turn
  split
  · exact h'
  · exact (engineStep_frame ‹_›).phase
  · exact h'

/-- A busy engine that has had all the turns it needs is idle in READY. -/
theorem turns_phase_ready {P : Params} {m : Mpe} (hV : P.Valid) (hI : m.Inv P) (hb : busy m.phase = true) {n : Nat}
    (hn : stepsLeft P m ≤ n) : ((turn P)^[n] m).phase = .ready := by
  have hidle : busy ((turn P)^[n] m).phase = false := by
    rw [← stepsLeft_zero (P := P), stepsLeft_turns hV n hI]
    omega
  have hlocked : ((turn P)^[n] m).phase ≠ .build :=
    turns_phase_ne_build n fun h => by simp [h, busy] at hb
  cases hp : ((turn P)^[n] m).phase <;> simp_all [busy]

/-- Settles O49: the run over the events and the engine left to itself are both turns of the engine
(`runSteps_undisturbing`, `runSteps_silent`), at least as many as any transformation takes (`stepsLeft_bound`), and more
change nothing (`turns_stable`). -/
theorem interleavingDoesNotChangeTheResult : Obligations.InterleavingDoesNotChangeTheResult := by
  intro s l hI hbusy hl hcount
  have hbound : stepsLeft Config.params s.mpe ≤ ceilDiv Config.params.nmax Config.params.B + 3 :=
    stepsLeft_bound config_valid hI
  obtain ⟨u, hrun, hmpe, htrace⟩ := runSteps_undisturbing l s hI hl
  obtain ⟨k, hk⟩ := Nat.exists_eq_add_of_le hcount
  obtain ⟨hsame, hcalls⟩ := turns_stable config_valid hI _ k hbound
  refine ⟨u, _, hrun, runSteps_silent _ hI rfl, ?_, ?_, ?_⟩
  · rw [hmpe]
    exact turns_phase_ready config_valid hI hbusy (hbound.trans hcount)
  · rw [hmpe, hk]
    exact hsame
  · rw [htrace, hk, hcalls]

end Sys2Proof.Machine
end

section
/-! PROOFS. The encoding (spec 30_encoding.md): the decoder as the table R82, the round trips between commands and words, the
words that are no command (R83, R84), and the acceptance table (R92). -/

namespace Sys2Proof

/-! ### The fields of a word -/

/-- The word is its three fields `opcode`, bits 23:8 and `imm8` (R80), as numbers. -/
theorem word_toNat (w : Word) :
    w.toNat = (opcodeField w).toNat * 2 ^ 24 + (w.extractLsb' 8 16).toNat * 2 ^ 8 + (immField w).toNat := by
  have := w.isLt
  simp only [opcodeField, immField, BitVec.extractLsb'_toNat, Nat.shiftRight_eq_div_pow]
  omega

/-- Two words with the same fields are the same word. -/
theorem word_eq_iff (v w : Word) :
    v = w ↔ opcodeField v = opcodeField w ∧ v.extractLsb' 8 16 = w.extractLsb' 8 16 ∧ immField v = immField w := by
  refine ⟨fun h => by simp [h], fun ⟨hop, hmid, himm⟩ => BitVec.eq_of_toNat_eq ?_⟩
  rw [word_toNat v, word_toNat w, hop, hmid, himm]

/-- Bits 23:0 are bits 23:8 and the operand. -/
theorem low_bits_zero_iff (w : Word) : w.extractLsb' 0 24 = 0#24 ↔ w.extractLsb' 8 16 = 0#16 ∧ immField w = 0#8 := by
  simp only [← BitVec.toNat_inj, immField, BitVec.extractLsb'_toNat, BitVec.toNat_ofNat, Nat.shiftRight_eq_div_pow]
  omega

/-- The bits the mask of format I8 leaves out are the operand's. -/
theorem and_mask_or_imm (w : Word) : w &&& Format.mask .i8 ||| (immField w).setWidth 32 = w := by
  have himm : (immField w).setWidth 32 = w &&& 0xFF#32 := by
    apply BitVec.eq_of_toNat_eq
    have hlow : w.toNat &&& 255 = w.toNat % 2 ^ 8 := Nat.and_two_pow_sub_one_eq_mod w.toNat 8
    have hlt : w.toNat % 256 < 4294967296 := by omega
    simp [immField, hlow, hlt]
  have hall : Format.mask .i8 ||| 0xFF#32 = BitVec.allOnes 32 := by decide
  rw [himm, ← BitVec.and_or_distrib_left, hall, BitVec.and_allOnes]

/-- The mask of either format keeps the opcode (R80). -/
theorem opcodeField_and_mask (w : Word) (f : Format) : opcodeField (w &&& f.mask) = opcodeField w := by
  have hmask : opcodeField f.mask = BitVec.allOnes 8 := by cases f <;> decide
  calc opcodeField (w &&& f.mask) = opcodeField w &&& opcodeField f.mask := BitVec.extractLsb'_and
    _ = opcodeField w := by rw [hmask, BitVec.and_allOnes]

/-! ### The row of an opcode -/

/-- The opcode selects the row: the decoder's search finds exactly the row with the word's opcode (R82). -/
theorem find_row_iff (w : Word) (m : Mnemonic) :
    allMnemonics.find? (fun n => opcodeField n.pattern == opcodeField w) = some m ↔
      opcodeField m.pattern = opcodeField w := by
  constructor
  · intro h
    simpa using List.find?_some h
  · intro h
    rw [← h]
    cases m <;> decide

/-- The decoder on a word whose opcode is a row's (R83). -/
theorem decode_of_row {w : Word} {m : Mnemonic} (h : opcodeField m.pattern = opcodeField w) :
    decode w = if w &&& m.format.mask = m.pattern then .instr (m.toInstr (immField w)) else .operand := by
  unfold decode
  rw [(find_row_iff w m).mpr h]

/-- The decoder on a word whose opcode is no row's (R83). -/
theorem decode_of_no_row {w : Word} (h : ¬∃ m : Mnemonic, opcodeField m.pattern = opcodeField w) :
    decode w = .illegal := by
  unfold decode
  split
  · rfl
  · exact absurd ⟨_, (find_row_iff w _).mp ‹_›⟩ h

/-- A word that its row's mask and match select has the row's opcode. -/
theorem opcode_of_match {w : Word} {m : Mnemonic} (h : w &&& m.format.mask = m.pattern) :
    opcodeField m.pattern = opcodeField w := by
  rw [← h, opcodeField_and_mask]

/-- On a word with the row's opcode, mask and match ask that its must-be-zero bits are zero: bits 23:8, and in format Z
bits 7:0 too (R80, R82). -/
theorem match_iff_zero_bits {w : Word} {m : Mnemonic} (h : opcodeField m.pattern = opcodeField w) :
    w &&& m.format.mask = m.pattern ↔ w.extractLsb' 8 16 = 0#16 ∧ (m.format = .z → immField w = 0#8) := by
  have hmid : m.format.mask.extractLsb' 8 16 = BitVec.allOnes 16 ∧ m.pattern.extractLsb' 8 16 = 0#16 := by
    cases m <;> decide
  have himm : immField m.pattern = 0#8 := by cases m <;> decide
  have hand : immField (w &&& m.format.mask) = immField w &&& immField m.format.mask := BitVec.extractLsb'_and
  rw [word_eq_iff, opcodeField_and_mask, BitVec.extractLsb'_and, hmid.1, hmid.2, BitVec.and_allOnes, hand, himm]
  refine (and_iff_right h.symm).trans (and_congr_right fun _ => ?_)
  cases m.format with
  | z =>
    rw [show immField (Format.mask .z) = BitVec.allOnes 8 by decide, BitVec.and_allOnes]
    simp
  | i8 =>
    rw [show immField (Format.mask .i8) = 0#8 by decide, BitVec.and_zero]
    simp

/-! ### Words that are a command -/

theorem mnemonic_toInstr (m : Mnemonic) (b : Byte) : (m.toInstr b).mnemonic = m := by cases m <;> rfl

/-- A format Z command is named by its mnemonic alone. -/
theorem toInstr_mnemonic_of_z {i : Instr} (b : Byte) (hz : i.mnemonic.format = .z) : i.mnemonic.toInstr b = i := by
  cases i <;> first | rfl | cases hz

/-- A format I8 command is named by its mnemonic and its operand. -/
theorem toInstr_mnemonic_of_i8 {i : Instr} (b : Byte) (hi : i.mnemonic.format = .i8) :
    i.mnemonic.toInstr b = i ↔ i.imm = b := by
  cases i <;> first | exact ⟨fun h => by cases h; rfl, fun h => by cases h; rfl⟩ | cases hi

/-- All the decoder can do with a word: a row selects it, its row does not select it, or it has no row (R82, R83). -/
theorem decode_cases (w : Word) :
    (∃ m : Mnemonic, w &&& m.format.mask = m.pattern ∧ decode w = .instr (m.toInstr (immField w))) ∨
    (∃ m : Mnemonic, opcodeField m.pattern = opcodeField w ∧ w &&& m.format.mask ≠ m.pattern ∧ decode w = .operand) ∨
    ((¬∃ m : Mnemonic, opcodeField m.pattern = opcodeField w) ∧ decode w = .illegal) := by
  by_cases hrow : ∃ m : Mnemonic, opcodeField m.pattern = opcodeField w
  · obtain ⟨m, hm⟩ := hrow
    by_cases hmatch : w &&& m.format.mask = m.pattern
    · exact .inl ⟨m, hmatch, by rw [decode_of_row hm, if_pos hmatch]⟩
    · exact .inr (.inl ⟨m, hm, hmatch, by rw [decode_of_row hm, if_neg hmatch]⟩)
  · exact .inr (.inr ⟨hrow, decode_of_no_row hrow⟩)

/-- A word decodes to a command exactly when the command's row selects it and the command has the word's operand (R82). -/
theorem decode_instr_iff (w : Word) (i : Instr) :
    decode w = .instr i ↔
      w &&& i.mnemonic.format.mask = i.mnemonic.pattern ∧ i.mnemonic.toInstr (immField w) = i := by
  constructor
  · intro h
    rcases decode_cases w with ⟨m, hmatch, hd⟩ | ⟨-, -, -, hd⟩ | ⟨-, hd⟩ <;> cases hd.symm.trans h
    rw [mnemonic_toInstr]
    exact ⟨hmatch, rfl⟩
  · rintro ⟨hmatch, hi⟩
    rw [decode_of_row (opcode_of_match hmatch), if_pos hmatch, hi]

theorem decode_z_iff (w : Word) (i : Instr) (hz : i.mnemonic.format = .z) :
    decode w = .instr i ↔ w &&& 0xFFFFFFFF#32 = i.mnemonic.pattern := by
  rw [decode_instr_iff, hz]
  exact and_iff_left (toInstr_mnemonic_of_z _ hz)

theorem decode_i8_iff (w : Word) (i : Instr) (hi : i.mnemonic.format = .i8) :
    decode w = .instr i ↔ w &&& 0xFFFFFF00#32 = i.mnemonic.pattern ∧ i.imm = immField w := by
  rw [decode_instr_iff, toInstr_mnemonic_of_i8 _ hi, hi]
  rfl

/-! ### Words that are no command -/

/-- A word is ILLEGAL exactly when its opcode is no row's. -/
theorem decode_illegal_iff_no_row (w : Word) :
    decode w = .illegal ↔ ¬∃ m : Mnemonic, opcodeField m.pattern = opcodeField w := by
  refine ⟨fun h ⟨m, hm⟩ => ?_, decode_of_no_row⟩
  rw [decode_of_row hm] at h
  split at h <;> cases h

/-- A word is OPERAND exactly when its opcode is a row's whose mask and match do not select it. -/
theorem decode_operand_iff_row (w : Word) :
    decode w = .operand ↔
      ∃ m : Mnemonic, opcodeField m.pattern = opcodeField w ∧ w &&& m.format.mask ≠ m.pattern := by
  constructor
  · intro h
    rcases decode_cases w with ⟨m, -, hd⟩ | ⟨m, hm, hno, -⟩ | ⟨-, hd⟩
    · cases hd.symm.trans h
    · exact ⟨m, hm, hno⟩
    · cases hd.symm.trans h
  · rintro ⟨m, hm, hno⟩
    rw [decode_of_row hm, if_neg hno]

/-- The opcodes of the rows of a format (R82). -/
def opcodesOf (f : Format) : List (BitVec 8) :=
  (allMnemonics.filter (·.format = f)).map (opcodeField ·.pattern)

theorem mem_opcodesOf (f : Format) (x : BitVec 8) :
    x ∈ opcodesOf f ↔ ∃ m : Mnemonic, m.format = f ∧ opcodeField m.pattern = x := by
  have hall : ∀ m : Mnemonic, m ∈ allMnemonics := by
    intro m
    cases m <;> decide
  simp [opcodesOf, hall]

/-- The opcodes of the format Z rows of R82. -/
theorem opcodesOf_z : opcodesOf .z = [0x00#8, 0x05#8, 0x06#8, 0x09#8, 0x0A#8, 0x0B#8, 0x0C#8, 0x10#8, 0x11#8, 0x12#8,
    0x13#8, 0x14#8, 0x15#8, 0x16#8] := by decide

/-- The opcodes of the format I8 rows of R82. -/
theorem opcodesOf_i8 : opcodesOf .i8 = [0x01#8, 0x02#8, 0x03#8, 0x04#8, 0x08#8] := by decide

/-- The opcodes that no row of R82 has. -/
theorem opcode_unassigned_iff (x : BitVec 8) :
    (¬∃ m : Mnemonic, opcodeField m.pattern = x) ↔ x = 0x07#8 ∨ (0x0D#8 ≤ x ∧ x ≤ 0x0F#8) ∨ 0x17#8 ≤ x := by
  have hrow : (∃ m : Mnemonic, opcodeField m.pattern = x) ↔ x ∈ opcodesOf .z ∨ x ∈ opcodesOf .i8 := by
    rw [mem_opcodesOf, mem_opcodesOf, ← exists_or]
    refine exists_congr fun m => ?_
    cases m.format <;> simp
  rw [hrow, opcodesOf_z, opcodesOf_i8]
  simp only [List.mem_cons, List.not_mem_nil, or_false]
  bv_omega

theorem decode_illegal_iff (w : Word) :
    decode w = .illegal ↔
      w.extractLsb' 24 8 = 0x07#8 ∨ (0x0D#8 ≤ w.extractLsb' 24 8 ∧ w.extractLsb' 24 8 ≤ 0x0F#8) ∨
        0x17#8 ≤ w.extractLsb' 24 8 :=
  (decode_illegal_iff_no_row w).trans (opcode_unassigned_iff _)

theorem decode_operand_iff (w : Word) :
    decode w = .operand ↔
      (w.extractLsb' 24 8 ∈ [0x00#8, 0x05#8, 0x06#8, 0x09#8, 0x0A#8, 0x0B#8, 0x0C#8, 0x10#8, 0x11#8, 0x12#8, 0x13#8,
          0x14#8, 0x15#8, 0x16#8] ∧ w.extractLsb' 0 24 ≠ 0#24) ∨
      (w.extractLsb' 24 8 ∈ [0x01#8, 0x02#8, 0x03#8, 0x04#8, 0x08#8] ∧ w.extractLsb' 8 16 ≠ 0#16) := by
  rw [decode_operand_iff_row, ← opcodesOf_z, ← opcodesOf_i8, mem_opcodesOf, mem_opcodesOf, ne_eq, low_bits_zero_iff]
  constructor
  · rintro ⟨m, hm, hno⟩
    rw [ne_eq, match_iff_zero_bits hm] at hno
    cases hf : m.format with
    | z => exact .inl ⟨⟨m, hf, hm⟩, fun hz => hno ⟨hz.1, fun _ => hz.2⟩⟩
    | i8 => exact .inr ⟨⟨m, hf, hm⟩, fun hz => hno ⟨hz, fun h => by simp [hf] at h⟩⟩
  · rintro (⟨⟨m, hf, hm⟩, hno⟩ | ⟨⟨m, hf, hm⟩, hno⟩) <;> refine ⟨m, hm, fun h => hno ?_⟩ <;>
      rw [match_iff_zero_bits hm] at h
    · exact ⟨h.1, h.2 hf⟩
    · exact h.1

/-! ### The table -/

/-- Settles O2: `decode_z_iff` and `decode_i8_iff` for the row of each command, and the two ways to be no command. -/
theorem decodedWordsAreTheTableRows : Obligations.DecodedWordsAreTheTableRows := by
  intro w
  refine ⟨?_, fun b => ?_, decode_illegal_iff w, decode_operand_iff w⟩
  · and_intros <;> exact decode_z_iff w _ rfl
  · and_intros <;> exact decode_i8_iff w _ rfl

/-- Settles O4: each word is written out, so the decoder can be run on it. -/
theorem writtenWordsDecodeToTheirCommands : Obligations.WrittenWordsDecodeToTheirCommands := by
  unfold Obligations.WrittenWordsDecodeToTheirCommands
  decide

/-! ### The round trips -/

/-- Settles O1: the family RoundTrip, whose members for format I8 hold for every operand. -/
theorem decodeOfEncodeIsTheInstruction : Obligations.DecodeOfEncodeIsTheInstruction
  | .nop => Laws.RoundTrip.nop
  | .setmode imm => Laws.RoundTrip.setmode imm
  | .setpad imm => Laws.RoundTrip.setpad imm
  | .pushkey imm => Laws.RoundTrip.pushkey imm
  | .pushiv imm => Laws.RoundTrip.pushiv imm
  | .lock => Laws.RoundTrip.lock
  | .clear => Laws.RoundTrip.clear
  | .pushd imm => Laws.RoundTrip.pushd imm
  | .clrd => Laws.RoundTrip.clrd
  | .enc => Laws.RoundTrip.enc
  | .dec => Laws.RoundTrip.dec
  | .popd => Laws.RoundTrip.popd
  | .rdstat => Laws.RoundTrip.rdstat
  | .rdcfg => Laws.RoundTrip.rdcfg
  | .rdilen => Laws.RoundTrip.rdilen
  | .rdolen => Laws.RoundTrip.rdolen
  | .rdklen => Laws.RoundTrip.rdklen
  | .rdbs => Laws.RoundTrip.rdbs
  | .rdblk => Laws.RoundTrip.rdblk

/-- A command without an operand has the operand 0. -/
theorem imm_of_z {i : Instr} (hz : i.mnemonic.format = .z) : i.imm = 0#8 := by
  cases i <;> first | rfl | cases hz

/-- Settles O3: a format Z word is its row's `match`; a format I8 word is its row's `match` with its own low byte. -/
theorem everyDecodedWordIsTheEncodingOfItsCommand : Obligations.EveryDecodedWordIsTheEncodingOfItsCommand := by
  intro w i h
  unfold encode
  cases hf : i.mnemonic.format with
  | z =>
    rw [imm_of_z hf, Machine.word_of_decode_z h hf]
    simp
  | i8 =>
    obtain ⟨hmatch, himm⟩ := (decode_i8_iff w i hf).mp h
    rw [← hmatch, himm]
    exact and_mask_or_imm w

end Sys2Proof

namespace Sys2Proof.Machine

/-! ### Words refused before the phase is looked at -/

theorem present_of_illegal {w : Word} (s : State) (h : decode w = .illegal) :
    present w s = .next { s with resps := s.resps ++ [0x81000000#32] } := by
  rw [present_eq, h, ← nak_illegal]
  rfl

theorem present_of_operand {w : Word} (s : State) (h : decode w = .operand) :
    present w s = .next { s with resps := s.resps ++ [0x82000000#32] } := by
  rw [present_eq, h, ← nak_operand]
  rfl

/-- Settles O6: the two refusals of `present`, on the words that `decode_illegal_iff` and `decode_operand_iff` name. -/
theorem wordsThatAreNoCommandAreRefused : Obligations.WordsThatAreNoCommandAreRefused := by
  intro s w rest hin
  rw [step_of_command hin]
  exact ⟨fun hop => present_of_illegal _ ((decode_illegal_iff w).mpr hop),
    fun hop hbits => present_of_operand _ ((decode_operand_iff w).mpr (.inl ⟨hop, hbits⟩)),
    fun hop hbits => present_of_operand _ ((decode_operand_iff w).mpr (.inr ⟨hop, hbits⟩))⟩

/-! ### One response for every word -/

/-- A presented word is refused with nothing written, or answered with the NAK bit clear (R81, R83). -/
theorem present_answer (w : Word) (s : State) :
    (∃ r, present w s = .next (s.reply (s.mpe, nakWord r))) ∨
      ∃ m p, present w s = .next (s.reply (m, ackWord p)) := by
  rw [present_eq]
  cases decode w with
  | instr i =>
    rcases cmdOf_answer Config.params i s.mpe with ⟨r, h⟩ | ⟨m, p, h⟩
    · exact .inl ⟨r, by simp only [h]⟩
    · exact .inr ⟨m, p, by simp only [h]⟩
  | illegal => exact .inl ⟨.illegal, rfl⟩
  | operand => exact .inl ⟨.operand, rfl⟩

/-- Settles O11: bit 31 tells the two answers of `present_answer` apart. -/
theorem refusedCommandsWriteNothing : Obligations.RefusedCommandsWriteNothing := by
  intro s w rest hin
  rw [step_of_command hin]
  rcases present_answer w { s with inputs := rest } with ⟨r, h⟩ | ⟨m, p, h⟩ <;>
    refine ⟨_, _, h, rfl, rfl, rfl, fun hbit => ?_, fun hbit => ?_⟩
  · exact ⟨rfl, nak_value r⟩
  · exact absurd ((nak_nak_bit r).symm.trans hbit) (by decide)
  · exact absurd ((ackWord_nak_bit p).symm.trans hbit) (by decide)
  · exact ackWord_lt p

/-! ### The acceptance table -/

/-- The row of the acceptance table R92 that a command stands in. -/
def cmdClass : Instr → CmdClass
  | .setmode _ | .setpad _ | .pushkey _ | .pushiv _ | .lock => .config
  | .clear => .idle
  | .pushd _ | .clrd | .enc | .dec | .popd => .data
  | .nop | .rdstat | .rdcfg | .rdilen | .rdolen | .rdklen | .rdbs | .rdblk => .always

/-- CLEAR is accepted in BUILD and READY (R92). -/
theorem phaseCheck_idle (p : Phase) : phaseCheck .idle p = none ↔ p = .build ∨ p = .ready := by
  cases p <;> simp [phaseCheck]

/-- A busy engine refuses everything but NOP and the reads (R92). -/
theorem phaseCheck_busy {c : CmdClass} {p : Phase} (hc : c ≠ .always) (hb : busy p = true) :
    phaseCheck c p = some .busy := by
  cases p <;> cases hb <;> cases c <;> first | rfl | exact absurd rfl hc

/-- Every command stands behind the phase check of its row (R84). -/
theorem cmdOf_gated (P : Params) (i : Instr) (m : Mpe) : ∃ acc, cmdOf P i m = gated (cmdClass i) m acc := by
  cases i <;> exact ⟨_, rfl⟩

/-- A command that the table refuses changes nothing but adds its response. -/
theorem exec_of_refused {i : Instr} {s : State} {r : Reason} (h : phaseCheck (cmdClass i) s.mpe.phase = some r) :
    exec i s = .next { s with resps := s.resps ++ [nakWord r] } := by
  obtain ⟨acc, hacc⟩ := cmdOf_gated Config.params i s.mpe
  rw [exec_eq, hacc, gated_of_refused acc h]
  rfl

theorem exec_of_busy {i : Instr} {s : State} (hi : cmdClass i ≠ .always) (hb : busy s.mpe.phase = true) :
    exec i s = .next { s with resps := s.resps ++ [0x83000000#32] } := by
  rw [exec_of_refused (phaseCheck_busy hi hb), nak_busy]

/-- The responses a command can give when its phase check passes (R83, R92): `b` is its operand, if it has one. -/
def AcceptedResponse (b : Byte) (i : Instr) (r : Word) : Prop :=
  r.getLsbD 31 = false ∨ r = 0x86000000#32 ∧ i ∈ [Instr.pushkey b, .pushiv b, .pushd b] ∨
    r = 0x87000000#32 ∧ i = .popd

theorem acceptedResponse_ack (b : Byte) (i : Instr) (p : BitVec 24) : AcceptedResponse b i (ackWord p) :=
  .inl (ackWord_nak_bit p)

/-- A push answers an acknowledgement, or FULL when its buffer is full. -/
theorem acceptedResponse_push {b : Byte} {i : Instr} {n k : Nat} (m m' : Mpe)
    (hi : i ∈ [Instr.pushkey b, .pushiv b, .pushd b]) :
    AcceptedResponse b i (if n < k then (m', ackWord 0) else (m, nakWord .full)).2 := by
  split
  · exact acceptedResponse_ack b i 0
  · exact .inr (.inl ⟨nak_full, hi⟩)

theorem acceptedResponse_start (P : Params) (d : Dir) (m : Mpe) (b : Byte) (i : Instr) :
    AcceptedResponse b i (start P d m).2 := by
  rcases start_cases P d m with ⟨e, -, h⟩ | ⟨-, -, -, h⟩ | ⟨-, -, h⟩ <;> rw [h] <;> exact acceptedResponse_ack b i _

/-- What a command answers when its phase check passes: FULL from the pushes, EMPTY from POPD, else an acknowledgement. -/
theorem cmdOf_accepted (P : Params) {b : Byte} {i : Instr} {m : Mpe} (hb : i.mnemonic.toInstr b = i)
    (h : phaseCheck (cmdClass i) m.phase = none) : AcceptedResponse b i (cmdOf P i m).2 := by
  have hg : ∀ acc, AcceptedResponse b i acc.2 → AcceptedResponse b i (gated (cmdClass i) m acc).2 :=
    fun acc hacc => (gated_of_accepted acc h).symm ▸ hacc
  cases i
  case pushkey | pushiv | pushd =>
    cases hb
    exact hg _ (acceptedResponse_push _ _ (by simp))
  case enc | dec => exact hg _ (acceptedResponse_start ..)
  case popd =>
    refine hg _ ?_
    split
    · exact .inr (.inr ⟨nak_empty, rfl⟩)
    · exact acceptedResponse_ack _ _ _
  all_goals exact hg _ (acceptedResponse_ack _ _ _)

/-- Settles O10: a command's row `cmdClass` and the phase decide between `exec_of_refused` and `cmdOf_accepted`. -/
theorem commandsAreAcceptedByPhase : Obligations.CommandsAreAcceptedByPhase := by
  intro s b
  have hconfig : ∀ i ∈ [Instr.setmode b, .setpad b, .pushkey b, .pushiv b, .lock],
      cmdClass i = .config ∧ i.mnemonic.toInstr b = i := by
    simp [cmdClass, Instr.mnemonic, Instr.line, Mnemonic.toInstr]
  have hdata : ∀ i ∈ [Instr.pushd b, .clrd, .enc, .dec, .popd], cmdClass i = .data ∧ i.mnemonic.toInstr b = i := by
    simp [cmdClass, Instr.mnemonic, Instr.line, Mnemonic.toInstr]
  have halways : ∀ i ∈ [Instr.nop, .rdstat, .rdcfg, .rdilen, .rdolen, .rdklen, .rdbs, .rdblk],
      cmdClass i = .always ∧ i.mnemonic.toInstr b = i := by
    simp [cmdClass, Instr.mnemonic, Instr.line, Mnemonic.toInstr]
  refine ⟨fun i hi => ⟨fun hp => ?_, exec_of_busy (by simp [hconfig i hi])⟩, exec_of_busy (by simp [cmdClass]),
    fun i hi => ⟨fun hp => ?_, exec_of_busy (by simp [hdata i hi])⟩, fun i hi => ?_⟩
  · rw [exec_of_refused (r := .locked) (by rw [(hconfig i hi).1, hp]; rfl), nak_locked]
  · rw [exec_of_refused (r := .unlocked) (by rw [(hdata i hi).1, hp]; rfl), nak_unlocked]
  · have haccept : phaseCheck (cmdClass i) s.mpe.phase = none ∧ i.mnemonic.toInstr b = i := by
      rcases hi with ⟨hi, hp⟩ | ⟨rfl, hp⟩ | ⟨hi, hp⟩ | hi
      · exact ⟨(hconfig i hi).1 ▸ (phaseCheck_config _).mpr hp, (hconfig i hi).2⟩
      · exact ⟨(phaseCheck_idle _).mpr hp, rfl⟩
      · exact ⟨(hdata i hi).1 ▸ (phaseCheck_data _).mpr hp, (hdata i hi).2⟩
      · exact ⟨(halways i hi).1 ▸ rfl, (halways i hi).2⟩
    exact ⟨_, _, exec_eq i s, rfl, cmdOf_accepted Config.params haccept.2 haccept.1⟩

end Sys2Proof.Machine
end

section
/-! PROOFS. The configuration commands (spec 40_config_commands.md R100 to R108): what each does in BUILD, the configuration
a run of them builds, and that a sealed one stays as it is. -/

namespace Sys2Proof.Machine

/-! ### One command in BUILD -/

/-- Settles O12: NOP stands behind no phase check, and its response is the acknowledgement of 0. -/
theorem nopHasNoEffect : Obligations.NopHasNoEffect := by
  intro s
  rw [exec_eq, ← ackWord_zero]
  rfl

/-- In BUILD the phase check of a configuration command passes, so it does what its own rule says (R92). -/
theorem exec_config {i : Instr} {s : State} {m : Mpe} {r : Word} (hp : s.mpe.phase = .build)
    (h : cmdOf Config.params i s.mpe = gated .config s.mpe (m, r)) :
    exec i s = .next { s with mpe := m, resps := s.resps ++ [r] } := by
  rw [exec_eq, h, gated_of_accepted _ ((phaseCheck_config _).mpr hp)]
  rfl

/-- Settles O13: both are accepted in BUILD, and neither rule looks at the byte. -/
theorem setmodeAndSetpadStoreTheCode : Obligations.SetmodeAndSetpadStoreTheCode := by
  intro s b hp
  rw [← ackWord_zero]
  exact ⟨exec_config hp rfl, exec_config hp rfl⟩

/-- Settles O14: both are accepted in BUILD, where the capacity test decides between the two clauses of each. -/
theorem pushkeyAndPushivAppendTheByte : Obligations.PushkeyAndPushivAppendTheByte := by
  intro s b hp
  rw [← ackWord_zero, ← nak_full]
  have hgate : ∀ {acc acc' : Mpe × Word}, acc = acc' → gated .config s.mpe acc = gated .config s.mpe acc' := congrArg _
  exact ⟨fun h => exec_config hp (hgate (if_pos h)), fun h => exec_config hp (hgate (if_neg h.not_gt)),
    fun h => exec_config hp (hgate (if_pos h)), fun h => exec_config hp (hgate (if_neg h.not_gt))⟩

/-- Settles O15: LOCK is accepted in BUILD, and its rule writes `PHASE` alone. -/
theorem lockSealsTheConfiguration : Obligations.LockSealsTheConfiguration := by
  intro s hp
  rw [← ackWord_zero]
  exact exec_config hp rfl

/-! ### The configuration that a list of commands builds -/

/-- The commands that write the configuration (R107). -/
def Configuring (i : Instr) : Prop := ∃ b : Byte, i = .setmode b ∨ i = .setpad b ∨ i = .pushkey b ∨ i = .pushiv b

/-- The MPE with the configuration that the commands of `l` build on the one it holds: the last codes, and the pushed bytes
in order (R107). `runSteps_configuring` ties it to the machine. -/
def Mpe.configuredBy (l : List Instr) (m : Mpe) : Mpe :=
  { m with
    mode := (l.filterMap setmodeOperand).getLast?.getD m.mode
    pad := (l.filterMap setpadOperand).getLast?.getD m.pad
    key := m.key ++ l.filterMap pushkeyOperand
    iv := m.iv ++ l.filterMap pushivOperand }

theorem configuredBy_nil (m : Mpe) : m.configuredBy [] = m := by simp [Mpe.configuredBy]

theorem configuredBy_setmode (b : Byte) (m : Mpe) : m.configuredBy [.setmode b] = { m with mode := b } := by
  simp [Mpe.configuredBy, setmodeOperand, setpadOperand, pushkeyOperand, pushivOperand]

theorem configuredBy_setpad (b : Byte) (m : Mpe) : m.configuredBy [.setpad b] = { m with pad := b } := by
  simp [Mpe.configuredBy, setmodeOperand, setpadOperand, pushkeyOperand, pushivOperand]

theorem configuredBy_pushkey (b : Byte) (m : Mpe) : m.configuredBy [.pushkey b] = { m with key := m.key ++ [b] } := by
  simp [Mpe.configuredBy, setmodeOperand, setpadOperand, pushkeyOperand, pushivOperand]

theorem configuredBy_pushiv (b : Byte) (m : Mpe) : m.configuredBy [.pushiv b] = { m with iv := m.iv ++ [b] } := by
  simp [Mpe.configuredBy, setmodeOperand, setpadOperand, pushkeyOperand, pushivOperand]

/-- The commands of a list build on what its first command has built. -/
theorem configuredBy_cons (i : Instr) (l : List Instr) (m : Mpe) :
    m.configuredBy (i :: l) = (m.configuredBy [i]).configuredBy l := by
  rw [← List.singleton_append]
  simp only [Mpe.configuredBy, List.filterMap_append, List.getLast?_append, Option.getD_or, List.append_assoc]

theorem key_length_le_configuredBy (l : List Instr) (m : Mpe) : m.key.length ≤ (m.configuredBy l).key.length := by
  simp [Mpe.configuredBy]

theorem iv_length_le_configuredBy (l : List Instr) (m : Mpe) : m.iv.length ≤ (m.configuredBy l).iv.length := by
  simp [Mpe.configuredBy]

/-- One of these commands, in BUILD and with room for its byte, is acknowledged and builds the configuration it says. -/
theorem exec_configuring {i : Instr} {s : State} (hi : Configuring i) (hp : s.mpe.phase = .build)
    (hkey : (s.mpe.configuredBy [i]).key.length ≤ 255) (hiv : (s.mpe.configuredBy [i]).iv.length ≤ 255) :
    exec i s = .next { s with mpe := s.mpe.configuredBy [i], resps := s.resps ++ [0#32] } := by
  obtain ⟨b, rfl | rfl | rfl | rfl⟩ := hi
  · rw [configuredBy_setmode]
    exact (setmodeAndSetpadStoreTheCode s b hp).1
  · rw [configuredBy_setpad]
    exact (setmodeAndSetpadStoreTheCode s b hp).2
  · obtain ⟨happend, -⟩ := pushkeyAndPushivAppendTheByte s b hp
    rw [configuredBy_pushkey] at hkey ⊢
    exact happend (by simpa using hkey)
  · obtain ⟨-, -, happend, -⟩ := pushkeyAndPushivAppendTheByte s b hp
    rw [configuredBy_pushiv] at hiv ⊢
    exact happend (by simpa using hiv)

/-- The word of a command, presented, runs the command. -/
theorem step_of_encode {s : State} {i : Instr} {rest : List Input} (h : s.inputs = .command (encode i) :: rest) :
    step s = exec i { s with inputs := rest } :=
  stepRunsThePresentedCommand s _ rest i h (decodeOfEncodeIsTheInstruction i)

theorem step_lock {s : State} {rest : List Input} (h : s.inputs = .command (encode .lock) :: rest)
    (hp : s.mpe.phase = .build) :
    step s = .next { s with
      inputs := rest, mpe := { s.mpe with phase := .ready }, resps := s.resps ++ [0#32] } :=
  (step_of_encode h).trans (lockSealsTheConfiguration _ hp)

/-- From BUILD, a list of these commands whose bytes fit builds the configuration it says, every command acknowledged. -/
theorem runSteps_configuring {l : List Instr} {rest : List Input} {s : State} (hl : ∀ i ∈ l, Configuring i)
    (hp : s.mpe.phase = .build) (hin : s.inputs = presentAll l ++ rest)
    (hkey : (s.mpe.configuredBy l).key.length ≤ 255) (hiv : (s.mpe.configuredBy l).iv.length ≤ 255) :
    runSteps l.length s =
      .next { s with
        mpe := s.mpe.configuredBy l, inputs := rest, resps := s.resps ++ List.replicate l.length 0#32 } := by
  induction l generalizing s with
  | nil =>
    have hs : s.inputs = rest := hin
    simp [← hs, configuredBy_nil]
  | cons i l ih =>
    obtain ⟨hi, hl⟩ := List.forall_mem_cons.mp hl
    rw [configuredBy_cons] at hkey hiv
    have hstep := (step_of_encode (rest := presentAll l ++ rest) hin).trans
      (exec_configuring hi hp ((key_length_le_configuredBy l _).trans hkey) ((iv_length_le_configuredBy l _).trans hiv))
    rw [List.length_cons, runSteps_succ _ hstep, ih hl ?_ rfl hkey hiv, configuredBy_cons i l s.mpe,
      List.append_assoc, List.singleton_append, ← List.replicate_succ]
    exact hp

/-- Settles O17: the list builds its configuration on that of reset (`runSteps_configuring`), and LOCK seals it. -/
theorem configurationCommandsReachConfigured : Obligations.ConfigurationCommandsReachConfigured := by
  rintro l resps calls m p k v hl hm hpad rfl rfl hkey hiv
  have hbuilt := runSteps_configuring (rest := presentAll [.lock])
    (s := ⟨State.reset.mpe, presentAll (l ++ [.lock]), resps, calls⟩) hl rfl (by simp [presentAll])
    (by simpa [Mpe.configuredBy] using hkey) (by simpa [Mpe.configuredBy] using hiv)
  refine (runSteps_add _ 1 hbuilt).trans ((runSteps_succ 0 (step_lock rfl rfl)).trans ?_)
  simp [Mpe.configuredBy, hm, hpad, List.replicate_succ']

/-! ### The sealed configuration -/

/-- Settles O18: an engine step keeps the configuration (`engineStep_frame`), and so does every command but CLEAR outside
BUILD (`cmdOf_sameConfig`); the only word that decodes to CLEAR is the one excluded. -/
theorem sealedConfigurationIsImmutable : Obligations.SealedConfigurationIsImmutable := by
  intro s t h hp hreset hclear
  rcases step_mpe_cases h with hsame | ⟨calls, hstep⟩ | ⟨w, i, hin, hdec, hcmd⟩ | ⟨hin, -⟩
  · rw [hsame]
    exact ⟨rfl, rfl, rfl, rfl, hp⟩
  · obtain ⟨hmode, hpad, hkey, hiv, -, hphase⟩ := engineStep_frame hstep
    exact ⟨hmode, hpad, hkey, hiv, hphase⟩
  · have hi : i ≠ .clear := by
      rintro rfl
      exact hclear (by rw [hin, word_of_decode_z hdec rfl]; rfl)
    obtain ⟨hmode, hpad, hkey, hiv, hphase⟩ := cmdOf_sameConfig Config.params i s.mpe hp hi
    rw [hcmd]
    exact ⟨hmode, hpad, hkey, hiv, hphase⟩
  · exact absurd hin hreset

end Sys2Proof.Machine
end

section
/-! PROOFS. The data movement and read commands (spec 41_data_commands.md R120 to R122, R124 to R129): what each does in
READY or in every phase, and the run of POPD commands that drains `OUT`. -/

namespace Sys2Proof.Machine

/-! ### One data command in READY -/

/-- In READY the phase check of a data command passes, so it does what its own rule says (R92). -/
theorem exec_data {i : Instr} {s : State} {acc : Mpe × Word} (hp : s.mpe.phase = .ready)
    (h : cmdOf Config.params i s.mpe = gated .data s.mpe acc) : exec i s = .next (s.reply acc) := by
  rw [exec_eq, h, gated_of_accepted acc ((phaseCheck_data _).mpr hp)]

/-- Settles O19: PUSHD is accepted in READY, where the capacity test of its rule decides between the two answers. -/
theorem pushdAppendsTheByteToIn : Obligations.PushdAppendsTheByteToIn := by
  intro s b hp
  rw [exec_data (i := .pushd b) hp rfl, ← ackWord_zero, ← nak_full]
  split <;> rfl

/-- Settles O20: CLRD is accepted in READY, and its rule writes the buffers, the two flags and the two counts alone. -/
theorem clrdClearsTheData : Obligations.ClrdClearsTheData := by
  intro s hp
  rw [← ackWord_zero]
  exact exec_data (i := .clrd) hp rfl

theorem exec_popd_of_cons {s : State} {b : Byte} {rest : Bytes} (hp : s.mpe.phase = .ready)
    (hout : s.mpe.out = b :: rest) :
    exec .popd s =
      .next { s with mpe := { s.mpe with out := rest }, resps := s.resps ++ [BitVec.ofNat 32 b.toNat] } := by
  rw [exec_data (i := .popd) hp rfl, hout, ← ackWord_byte]
  rfl

theorem exec_popd_of_nil {s : State} (hp : s.mpe.phase = .ready) (hout : s.mpe.out = []) :
    exec .popd s = .next { s with resps := s.resps ++ [0x87000000#32] } := by
  rw [exec_data (i := .popd) hp rfl, hout, ← nak_empty]
  rfl

/-- Settles O21: the two cases of `OUT` are the two arms of POPD's rule. -/
theorem popdReturnsAndRemovesTheFirstByte : Obligations.PopdReturnsAndRemovesTheFirstByte :=
  fun _ hp => ⟨fun _ _ => exec_popd_of_cons hp, exec_popd_of_nil hp⟩

/-! ### Draining the output -/

/-- From READY, as many waiting POPD commands as `OUT` has bytes drain it, first byte first: by induction on `OUT`, since
each POPD leaves READY and the rest of `OUT`. -/
theorem runSteps_popd {out : Bytes} {rest : List Input} {s : State} (hp : s.mpe.phase = .ready) (hout : s.mpe.out = out)
    (hin : s.inputs = presentAll (List.replicate out.length .popd) ++ rest) :
    runSteps out.length s =
      .next { s with
        mpe := { s.mpe with out := [] }
        inputs := rest
        resps := s.resps ++ out.map fun b => BitVec.ofNat 32 b.toNat } := by
  induction out generalizing s with
  | nil =>
    have hrest : s.inputs = rest := hin
    have hs : s = { s with mpe := { s.mpe with out := [] }, inputs := rest } := by rw [← hout, ← hrest]
    simpa using hs
  | cons b out ih =>
    have hstep := (step_of_encode (rest := presentAll (List.replicate out.length .popd) ++ rest) hin).trans
      (exec_popd_of_cons hp hout)
    rw [List.length_cons, runSteps_succ _ hstep, ih ?_ ?_ ?_]
    · rw [List.append_assoc]
      rfl
    · exact hp
    · rfl
    · rfl

/-- Settles O22, by `runSteps_popd`. -/
theorem poppingEverythingReturnsTheWholeResult : Obligations.PoppingEverythingReturnsTheWholeResult :=
  fun _ _ hp => runSteps_popd hp rfl

/-! ### The read commands -/

/-- A read command answers its payload in every phase and changes nothing (R67). -/
theorem exec_read {i : Instr} {s : State} {p : BitVec 24} (h : cmdOf Config.params i s.mpe = cmdRead p s.mpe) :
    exec i s = .next { s with resps := s.resps ++ [ackWord p] } := by
  rw [exec_eq, h]
  rfl

/-- The pair payload as a number: `lo` in bits 7:0, `hi` above it (R124). -/
theorem pairPayload_toNat (lo hi : Byte) : (pairPayload lo hi).toNat = lo.toNat + 256 * hi.toNat := by
  simp only [pairPayload, toNat_append_eq_add, BitVec.toNat_zero]
  omega

/-- Under R5 and R7 what a data buffer may hold is counted exactly in 24 bits (R38 item 1, R81). -/
theorem count24_toNat_of_le_cap {P : Params} (hV : P.Valid) {n : Nat} (h : n ≤ P.nmax + P.B) :
    (count24 n).toNat = n := by
  obtain ⟨-, hB, hnmax⟩ := hV
  exact count24_toNat n (by omega)

/-- Settles O24: RDCFG's payload is the pair of codes, and two lengths of at most 255 fit RDKLEN's payload. -/
theorem rdcfgAndRdklenReturnTheConfiguration : Obligations.RdcfgAndRdklenReturnTheConfiguration := by
  intro s
  refine ⟨⟨_, exec_read rfl, ?_⟩, ⟨_, exec_read rfl, fun hkey hiv => ?_⟩⟩
  · rw [ackWord_toNat, pairPayload_toNat]
  · rw [ackWord_toNat, count24_toNat _ (by omega)]

/-- Settles O25: each payload is its count, exact since the invariant bounds the buffers and R5 the block size. -/
theorem rdilenRdolenRdbsRdblkReturnTheCounts : Obligations.RdilenRdolenRdbsRdblkReturnTheCounts := by
  intro s
  have hexact : ∀ {n : Nat}, n ≤ Config.params.nmax + Config.params.B → (ackWord (count24 n)).toNat = n :=
    fun h => (ackWord_toNat _).trans (count24_toNat_of_le_cap config_valid h)
  exact ⟨⟨_, exec_read rfl, fun hI => hexact hI.in_len⟩, ⟨_, exec_read rfl, fun hI => hexact hI.out_len⟩,
    ⟨_, exec_read rfl, hexact (Nat.le_add_left ..)⟩, ⟨_, exec_read rfl, ackWord_toNat _⟩⟩

end Sys2Proof.Machine
end

section
/-! PROOFS. The transform commands (spec 42_transform_commands.md R140 to R151): what ENC and DEC start or report, how the
transformation they start ends, in how many steps, and what it depends on. -/

namespace Sys2Proof.Machine

/-! ### ENC and DEC in READY -/

/-- In READY the command of a direction does what `Start` says (R142, R143). -/
theorem exec_startCommand {s : State} (d : Dir) (hp : s.mpe.phase = .ready) :
    exec (startCommand d) s = .next (s.reply (start Config.params d s.mpe)) :=
  exec_data hp (by cases d <;> rfl)

/-- The commands that start a transformation are ENC and DEC. -/
theorem eq_startCommand {i : Instr} (hi : i = .enc ∨ i = .dec) : ∃ d, i = startCommand d := by
  rcases hi with rfl | rfl
  · exact ⟨.encrypt, rfl⟩
  · exact ⟨.decrypt, rfl⟩

/-- `Start` finds the first violation in the order of the checks (R140, R141, R239): the mode and the scheme that the codes
name are checked as the codes are. -/
theorem startError_eq_firstViolation (P : Params) (d : Dir) (m : Mpe) : startError P d m = firstViolation P d m := by
  unfold startError validate validateOf firstViolation
  cases hmode : modeOf m.mode with
  | none => rw [if_pos ((modeOf_eq_none _).mp hmode)]
  | some md =>
    rw [if_neg fun h => by rw [← modeOf_eq_none, hmode] at h; cases h]
    cases hpad : schemeOf m.pad with
    | none => rw [if_pos ((schemeOf_eq_none _).mp hpad)]
    | some sch =>
      rw [if_neg fun h => by rw [← schemeOf_eq_none, hpad] at h; cases h]
      have hecb : md = .ecb ↔ m.mode = 2 := by
        rw [← Option.some_inj, ← hmode]
        exact modeOf_eq_some m.mode .ecb
      have hpkcs5 : sch = .pkcs5 ↔ m.pad = 3 := by
        rw [← Option.some_inj, ← hpad]
        exact schemeOf_eq_some m.pad .pkcs5
      simp only [ne_eq, hecb, hpkcs5, alignCheck]
      split_ifs <;> rfl

/-- Settles O27: `exec_startCommand` and the three ways `Start` can go (`start_cases`), chosen by the first violation. -/
theorem encAndDecStartOrReportTheFirstViolation : Obligations.EncAndDecStartOrReportTheFirstViolation := by
  intro s d hp
  rw [exec_startCommand d hp, ← startError_eq_firstViolation, ← ackWord_zero]
  rcases start_cases Config.params d s.mpe with ⟨e, herr, hstart⟩ | ⟨herr, hd, hblock, hstart⟩ | ⟨herr, hrun, hstart⟩ <;>
    rw [herr, hstart]
  · simp only [← ackWord_byte]
    rfl
  · simp only [inBlockMode, if_pos (And.intro hd hblock)]
    rfl
  · simp only [inBlockMode, if_neg hrun]
    rfl

/-! ### The end of RUN -/

theorem endOfRunStep_unpad {m : Mpe} (h : m.dir = .decrypt ∧ inBlockMode m) :
    endOfRunStep m = .stepped { m with phase := .unpad } [] :=
  if_pos h

theorem endOfRunStep_complete {m : Mpe} (h : ¬(m.dir = .decrypt ∧ inBlockMode m)) :
    endOfRunStep m = .stepped (complete m) [] :=
  if_neg h

/-- Settles O31: with no block left the engine step is the end-of-RUN step, whose two branches are the two clauses. -/
theorem endOfRunGoesToUnpadOrCompletes : Obligations.EndOfRunGoesToUnpadOrCompletes := by
  intro P m hp hend
  rw [engineStep_end hp hend]
  exact ⟨endOfRunStep_unpad, endOfRunStep_complete⟩

/-! ### The run after ENC or DEC -/

/-- The machine left alone after ENC or DEC takes the engine's turns from what `Start` made of the MPE. -/
theorem runSteps_after_start {s t : State} {d : Dir} (hI : s.Inv) (hp : s.mpe.phase = .ready) (hin : s.inputs = [])
    (h : exec (startCommand d) s = .next t) (n : Nat) :
    ∃ u, runSteps n t = .next u ∧ u.mpe = (turn Config.params)^[n] (start Config.params d s.mpe).1 := by
  rw [exec_startCommand d hp] at h
  cases h
  exact ⟨_, runSteps_silent n (inv_start config_valid d hI hp) hin, rfl⟩

/-- `Start` reads the configuration and `IN` alone: it writes every other field (R151). -/
theorem start_congr {P : Params} {d : Dir} {m m' : Mpe} (hmode : m.mode = m'.mode) (hpad : m.pad = m'.pad)
    (hkey : m.key = m'.key) (hiv : m.iv = m'.iv) (hinp : m.inp = m'.inp) : start P d m = start P d m' := by
  cases m
  cases m'
  cases hmode
  cases hpad
  cases hkey
  cases hiv
  cases hinp
  rfl

/-- Settles O50: `Start` makes the same MPE of both states (`start_congr`), and the turns depend on the MPE alone. -/
theorem transformationsAreRepeatable : Obligations.TransformationsAreRepeatable := by
  intro s s' t t' i n hI hI' hi hp hp' hmode hpad hkey hiv hinp hin hin' h h'
  obtain ⟨d, rfl⟩ := eq_startCommand hi
  obtain ⟨u, hrun, hu⟩ := runSteps_after_start hI hp hin h n
  obtain ⟨u', hrun', hu'⟩ := runSteps_after_start hI' hp' hin' h' n
  exact ⟨u, u', hrun, hrun', by rw [hu, hu', start_congr hmode hpad hkey hiv hinp]⟩

/-! ### How many steps a transformation takes -/

/-- `L'` (R150): the length of `IN` after padding, which an encryption in a block mode adds unless the scheme is None. -/
def paddedLength (P : Params) (d : Dir) (m : Mpe) : Nat :=
  if d = .encrypt ∧ inBlockMode m ∧ m.pad ≠ 1 then m.inp.length + padLen m.inp.length P.B else m.inp.length

/-- What the padding adder makes of `IN` in a block mode has the length `L'`. -/
theorem applyPad_length_eq_paddedLength {P : Params} {m : Mpe} {sch : PadScheme} (hblock : inBlockMode m)
    (hpad : m.pad = schemeCode sch) (h5 : sch = .pkcs5 → P.B = 8) :
    (applyPad P.B m.inp sch).length = paddedLength P .encrypt m := by
  by_cases hid : sch = .identity
  · subst hid
    exact (if_neg fun h => h.2.2 hpad).symm
  · rw [applyPad_length _ _ _ hid h5, paddedLength, if_pos]
    exact ⟨rfl, hblock, by rw [hpad]; cases sch <;> simp_all [schemeCode]⟩

theorem stepsLeft_of_pad {P : Params} {m : Mpe} (hV : P.Valid) (hI : m.Inv P) (hp : m.phase = .pad) :
    stepsLeft P m = ceilDiv (paddedLength P .encrypt m) P.B + 2 := by
  obtain ⟨sch, hsch, h5, hpad, -, haligned, -⟩ := pad_shape hV hI hp
  rw [← applyPad_length_eq_paddedLength (hI.pad_block hp).2 hpad h5,
    ceilDiv_of_mod_eq_zero _ _ (valid_pos hV) haligned]
  simp only [stepsLeft, hp, hsch]

/-- The engine steps of a transformation that `Start` started (R150). -/
theorem stepsLeft_start {P : Params} {d : Dir} {m : Mpe} (hV : P.Valid) (hI : m.Inv P) (hp : m.phase = .ready)
    (hb : busy (start P d m).1.phase = true) :
    stepsLeft P (start P d m).1 = ceilDiv (paddedLength P d m) P.B + (if inBlockMode m then 2 else 1) := by
  have hI' := inv_start hV d hI hp
  rcases start_cases P d m with ⟨e, -, hstart⟩ | ⟨-, rfl, hblock, hstart⟩ | ⟨-, hrun, hstart⟩ <;> rw [hstart] at hb hI' ⊢
  · cases hb
  · rw [if_pos hblock]
    exact stepsLeft_of_pad hV hI' rfl
  · have hlen : paddedLength P d m = m.inp.length := if_neg fun h => hrun ⟨h.1, h.2.1⟩
    have hcount := count24_toNat _ (ceilDiv_bound hV hI.in_len)
    have hdir : d = .decrypt ∧ inBlockMode m ↔ inBlockMode m :=
      ⟨And.right, fun h => ⟨by cases d; exacts [absurd ⟨rfl, h⟩ hrun, rfl], h⟩⟩
    rw [hlen, ← if_congr hdir rfl rfl]
    exact congrArg (· + _) hcount

/-- Settles O48: each turn of a busy engine takes one off `stepsLeft`, which `Start` sets to R150's number. -/
theorem transformationsTakeTheStatedNumberOfSteps : Obligations.TransformationsTakeTheStatedNumberOfSteps := by
  intro s t i len n steps hI hi hp hin h hb hlen hsteps
  obtain ⟨d, rfl⟩ := eq_startCommand hi
  have hlen' : len = paddedLength Config.params d s.mpe := by
    rw [hlen]
    cases d <;> simp [startCommand, paddedLength]
  obtain ⟨u, hrun, hu⟩ := runSteps_after_start hI hp hin h n
  rw [exec_startCommand d hp] at h
  cases h
  have hleft := stepsLeft_start config_valid hI hp hb
  rw [← hlen'] at hleft
  refine ⟨u, hrun, ?_⟩
  rw [← Bool.not_eq_false, ← stepsLeft_zero (P := Config.params), hu,
    stepsLeft_turns config_valid n (inv_start config_valid d hI hp), hleft, hsteps, ceilDiv]
  omega

/-! ### What a transformation ends with -/

/-- `Encrypt` or `Decrypt` of what the MPE holds (R148). -/
def transformRef (P : Params) (d : Dir) (m : Mpe) : Except ErrorKind Bytes :=
  match d with
  | .encrypt => encryptRef P m.mode m.pad m.key m.iv m.inp
  | .decrypt => decryptRef P m.mode m.pad m.key m.iv m.inp

/-- What RUN is given: a block mode's encryption has passed the padding adder (R148, R170). -/
def runInput (P : Params) (d : Dir) (md : Mode) (sch : PadScheme) (data : Bytes) : Bytes :=
  if d = .encrypt ∧ blockMode md then applyPad P.B data sch else data

/-- What becomes of RUN's output: a block mode's decryption passes the padding remover (R148, R171). -/
def runResult (P : Params) (d : Dir) (md : Mode) (sch : PadScheme) (out : Bytes) : Except ErrorKind Bytes :=
  if d = .decrypt ∧ blockMode md then (removePad P.B out sch).elim (.error .invalidPadding) .ok else .ok out

theorem inBlockMode_iff {m : Mpe} {md : Mode} (h : m.mode = modeCode md) : inBlockMode m ↔ blockMode md = true := by
  rw [inBlockMode, h]
  cases md <;> decide

/-- A good configuration names a mode. -/
theorem mode_of_good {P : Params} {m : Mpe} (h : GoodConfig P m) : ∃ md, m.mode = modeCode md := by
  rcases h.mode_named with (h | h) | (h | h | h)
  exacts [⟨.cbc, h⟩, ⟨.ecb, h⟩, ⟨.cfb, h⟩, ⟨.ofb, h⟩, ⟨.ctr, h⟩]

theorem transformRef_of_invalid {P : Params} {m : Mpe} {e : ErrorKind} (d : Dir) (h : validate P m = some e) :
    transformRef P d m = .error e := by
  unfold validate at h
  cases d <;> simp only [transformRef, encryptRef, decryptRef, h]

/-- On a valid configuration the only error left is that of the alignment check; without it the reference function is RUN
between the padding adder and the padding remover (R148). -/
theorem transformRef_of_valid {P : Params} {m : Mpe} {md : Mode} {sch : PadScheme} (d : Dir)
    (h : validate P m = none) (hmode : m.mode = modeCode md) (hpad : m.pad = schemeCode sch) :
    transformRef P d m =
      (startError P d m).elim (runResult P d md sch (modeOut P md d m.key m.iv (runInput P d md sch m.inp))) .error := by
  have hblock : m.mode = 1 ∨ m.mode = 2 ↔ blockMode md = true := inBlockMode_iff hmode
  have hnone : m.pad = 1 ↔ sch = .identity := by
    rw [hpad]
    cases sch <;> decide
  simp only [startError, h]
  unfold validate at h
  rw [← modeOf_eq_some] at hmode
  rw [← schemeOf_eq_some] at hpad
  simp only [alignCheck, runResult, runInput, hblock, hnone]
  cases hb : blockMode md with
  | false => cases d <;> simp [transformRef, encryptRef, decryptRef, h, hmode, hpad, hb, modeOut]
  | true =>
    cases d with
    | encrypt =>
      simp only [transformRef, encryptRef, h, hmode, hpad, hb, modeOut, if_true, and_self, and_true, true_and,
        reduceCtorEq, false_or, if_false]
      split_ifs <;> rfl
    | decrypt =>
      simp only [transformRef, decryptRef, h, hmode, hpad, hb, modeOut, if_true, and_self, true_and, true_or,
        reduceCtorEq, false_and, if_false]
      split_ifs
      · rfl
      · cases removePad P.B (modeDec P md m.key m.iv m.inp) sch <;> rfl

/-- On a violation that `Start` finds, the reference function gives its error. -/
theorem transformRef_of_startError {P : Params} {d : Dir} {m : Mpe} {e : ErrorKind} (h : startError P d m = some e) :
    transformRef P d m = .error e := by
  cases hv : validate P m with
  | some e' =>
    rw [startError, hv] at h
    cases h
    exact transformRef_of_invalid d hv
  | none =>
    have hgood := (validate_eq_none P m).mp hv
    obtain ⟨md, hmode⟩ := mode_of_good hgood
    obtain ⟨sch, -, hpad, -⟩ := scheme_of_good hgood
    rw [transformRef_of_valid d hv hmode hpad, h]
    rfl

/-- Where `Start` finds no violation, the reference function is RUN between the padding adder and the remover. -/
theorem transformRef_of_no_startError {P : Params} {d : Dir} {m : Mpe} {md : Mode} {sch : PadScheme}
    (h : startError P d m = none) (hmode : m.mode = modeCode md) (hpad : m.pad = schemeCode sch) :
    transformRef P d m = runResult P d md sch (modeOut P md d m.key m.iv (runInput P d md sch m.inp)) := by
  have hv := (validate_eq_none P m).mpr ((startError_eq_none P d m).mp h).1
  rw [transformRef_of_valid d hv hmode hpad, h]
  rfl

/-! ### How the engine gets there -/

/-- A transformation of the MPE `m` in a direction has ended in `u` with a result (R149). -/
structure Finished (m : Mpe) (d : Dir) (result : Except ErrorKind Bytes) (u : Mpe) : Prop where
  phase : u.phase = .ready
  config : SameConfig m u
  inp : u.inp = []
  dir : u.dir = d
  result :
    match result with
    | .ok r => u.out = r ∧ u.done = true ∧ u.err = none
    | .error e => u.out = [] ∧ u.done = false ∧ u.err = some e

theorem SameConfig.trans {m m' u : Mpe} (h : SameConfig m m') (h' : SameConfig m' u) : SameConfig m u :=
  ⟨h'.mode.trans h.mode, h'.pad.trans h.pad, h'.key.trans h.key, h'.iv.trans h.iv, h'.sealed⟩

theorem EngineFrame.sameConfig {m m' : Mpe} (h : EngineFrame m m') : SameConfig m m' :=
  ⟨h.mode, h.pad, h.key, h.iv, h.phase⟩

/-- What ends a transformation of a later MPE with the same configuration ends one of the earlier. -/
theorem Finished.of_sameConfig {m m' u : Mpe} {d : Dir} {result : Except ErrorKind Bytes} (h : SameConfig m m')
    (hfin : Finished m' d result u) : Finished m d result u :=
  { hfin with config := h.trans hfin.config }

section Ending
variable {P : Params} {m : Mpe} {md : Mode} {sch : PadScheme}

/-- The UNPAD step ends a transformation with what the padding remover makes of `OUT` (R171). -/
theorem turn_unpad_finished (hI : m.Inv P) (hp : m.phase = .unpad) (hpad : m.pad = schemeCode sch) :
    Finished m m.dir ((removePad P.B m.out sch).elim (.error .invalidPadding) .ok) (turn P m) := by
  have hin := (hI.unpad_block hp).2.2
  have herr := (hI.busy_clean (by rw [hp]; rfl)).2
  have hstep := engineStep_unpad (P := P) hp
  rw [unpadStep, (schemeOf_eq_some _ _).mpr hpad] at hstep
  cases hr : removePad P.B m.out sch with
  | none =>
    simp only [hr] at hstep
    rw [turn_stepped hstep]
    exact ⟨rfl, (engineStep_frame hstep).sameConfig, rfl, rfl, rfl, rfl, rfl⟩
  | some r =>
    simp only [hr] at hstep
    rw [turn_stepped hstep]
    exact ⟨rfl, (engineStep_frame hstep).sameConfig, hin, rfl, rfl, rfl, herr⟩

/-- With no block left in RUN, the one or two turns that are left end the transformation with the result of `OUT`
(R145). -/
theorem turns_end_finished (hV : P.Valid) (hI : m.Inv P) (hp : m.phase = .run) (hb : ¬m.blk < m.nblk)
    (hmode : m.mode = modeCode md) (hpad : m.pad = schemeCode sch) :
    ∃ n, Finished m m.dir (runResult P m.dir md sch m.out) ((turn P)^[n] m) := by
  have hin := run_end_inp hV hI hp hb
  have herr := (hI.busy_clean (by rw [hp]; rfl)).2
  have hstep := engineStep_end (P := P) hp hb
  have hiff : m.dir = .decrypt ∧ inBlockMode m ↔ m.dir = .decrypt ∧ blockMode md = true :=
    and_congr_right' (inBlockMode_iff hmode)
  by_cases hd : m.dir = .decrypt ∧ inBlockMode m
  · rw [endOfRunStep_unpad hd] at hstep
    rw [runResult, if_pos (hiff.mp hd)]
    refine ⟨2, ?_⟩
    rw [Function.iterate_succ_apply, Function.iterate_one, turn_stepped hstep]
    exact (turn_unpad_finished (inv_engine hV hI hstep) rfl hpad).of_sameConfig (engineStep_frame hstep).sameConfig
  · rw [endOfRunStep_complete hd] at hstep
    rw [runResult, if_neg (hiff.not.mp hd)]
    refine ⟨1, ?_⟩
    rw [Function.iterate_one, turn_stepped hstep]
    exact ⟨rfl, (engineStep_frame hstep).sameConfig, hin, rfl, rfl, rfl, herr⟩

/-- From the start of RUN the turns end the transformation with the result of the mode's output on `IN`. -/
theorem turns_run_finished (hV : P.Valid) (hI : m.Inv P) (hp : m.phase = .run) (hout : m.out = [])
    (hmode : m.mode = modeCode md) (hpad : m.pad = schemeCode sch) :
    ∃ n, Finished m m.dir (runResult P m.dir md sch (modeOut P md m.dir m.key m.fb m.inp)) ((turn P)^[n] m) := by
  obtain ⟨m', hturns, hp', hend, hframe, -, hout', hI'⟩ := blocks_out hV md _ hI hp hmode rfl
  obtain ⟨n, hfin⟩ := turns_end_finished hV hI' hp' hend (hframe.mode.trans hmode) (hframe.pad.trans hpad)
  rw [hout', hout, List.nil_append, hframe.dir] at hfin
  refine ⟨n + (m.nblk.toNat - m.blk.toNat), ?_⟩
  rw [Function.iterate_add_apply, hturns]
  exact hfin.of_sameConfig hframe.sameConfig

/-- From PAD the turns end the transformation with the mode's output on the padded `IN` (R170). -/
theorem turns_pad_finished (hV : P.Valid) (hI : m.Inv P) (hp : m.phase = .pad)
    (hmode : m.mode = modeCode md) (hpad : m.pad = schemeCode sch) :
    ∃ n, Finished m m.dir (runResult P m.dir md sch (modeOut P md m.dir m.key m.fb (applyPad P.B m.inp sch)))
      ((turn P)^[n] m) := by
  obtain ⟨sch', hsch', -, -, hstep, -, -⟩ := pad_shape hV hI hp
  obtain rfl : sch' = sch := Option.some_inj.mp (hsch'.symm.trans ((schemeOf_eq_some _ _).mpr hpad))
  obtain ⟨n, hfin⟩ := turns_run_finished hV (inv_engine hV hI hstep) rfl (hI.pad_fresh hp).1 hmode hpad
  refine ⟨n + 1, ?_⟩
  rw [Function.iterate_succ_apply, turn_stepped hstep]
  exact hfin.of_sameConfig (engineStep_frame hstep).sameConfig

/-- ECB does not look at the register, and the other modes start from `IV` (R144). -/
theorem modeOut_startRegister (d : Dir) (k data : Bytes) (hmode : m.mode = modeCode md) :
    modeOut P md d k (if m.mode = 2 then rep P.B 0 else m.iv) data = modeOut P md d k m.iv data := by
  rw [hmode]
  cases md
  case ecb => cases d <;> rfl
  all_goals rw [if_neg (by decide)]

/-- The turns after `Start` end in READY with what the reference function says (R149). -/
theorem turns_start_finished (hV : P.Valid) (hI : m.Inv P) (hp : m.phase = .ready) (d : Dir) :
    ∃ n, Finished m d (transformRef P d m) ((turn P)^[n] (start P d m).1) := by
  have hI' := inv_start hV d hI hp
  have hconfig := start_sameConfig P d m
  rcases start_cases P d m with ⟨e, herr, hstart⟩ | ⟨hok, rfl, hblock, hstart⟩ | ⟨hok, hrun, hstart⟩ <;>
    rw [hstart] at hI' hconfig ⊢
  · rw [transformRef_of_startError herr]
    exact ⟨0, rfl, hconfig, rfl, rfl, rfl, rfl, rfl⟩
  all_goals
    have hgood := ((startError_eq_none _ _ _).mp hok).1
    obtain ⟨md, hmode⟩ := mode_of_good hgood
    obtain ⟨sch, -, hpad, -⟩ := scheme_of_good hgood
    rw [transformRef_of_no_startError hok hmode hpad, ← modeOut_startRegister _ _ _ hmode]
  · have hinput : runInput P .encrypt md sch m.inp = applyPad P.B m.inp sch :=
      if_pos ⟨rfl, (inBlockMode_iff hmode).mp hblock⟩
    rw [hinput]
    obtain ⟨n, hfin⟩ := turns_pad_finished hV hI' rfl hmode hpad
    exact ⟨n, hfin.of_sameConfig hconfig⟩
  · have hinput : runInput P d md sch m.inp = m.inp :=
      if_neg fun h => hrun ⟨h.1, (inBlockMode_iff hmode).mpr h.2⟩
    rw [hinput]
    obtain ⟨n, hfin⟩ := turns_run_finished hV hI' rfl rfl hmode hpad
    exact ⟨n, hfin.of_sameConfig hconfig⟩

end Ending

/-- The machine left alone after ENC or DEC ends with what the reference function says (R149): in the turns that take the
MPE there. -/
theorem runSteps_start_finished {s t : State} {d : Dir} (hI : s.Inv) (hp : s.mpe.phase = .ready) (hin : s.inputs = [])
    (h : exec (startCommand d) s = .next t) :
    ∃ n u, runSteps n t = .next u ∧ Finished s.mpe d (transformRef Config.params d s.mpe) u.mpe := by
  obtain ⟨n, hfin⟩ := turns_start_finished config_valid hI hp d
  obtain ⟨u, hrun, hu⟩ := runSteps_after_start hI hp hin h n
  exact ⟨n, u, hrun, hu ▸ hfin⟩

/-- Settles O46, by `runSteps_start_finished`. -/
theorem encAgreesWithEncrypt : Obligations.EncAgreesWithEncrypt := by
  intro s t hI hp hin h
  obtain ⟨n, u, hrun, hphase, hconfig, hinp, hdir, hresult⟩ := runSteps_start_finished (d := .encrypt) hI hp hin h
  exact ⟨n, u, hrun, hphase, hconfig.mode, hconfig.pad, hconfig.key, hconfig.iv, hinp, hdir, hresult⟩

/-- Settles O47, by `runSteps_start_finished`. -/
theorem decAgreesWithDecrypt : Obligations.DecAgreesWithDecrypt := by
  intro s t hI hp hin h
  obtain ⟨n, u, hrun, hphase, hconfig, hinp, hdir, hresult⟩ := runSteps_start_finished (d := .decrypt) hI hp hin h
  exact ⟨n, u, hrun, hphase, hconfig.mode, hconfig.pad, hconfig.key, hconfig.iv, hinp, hdir, hresult⟩

end Sys2Proof.Machine
end

section
/-! PROOFS. The padding (spec 43_padding.md R161 to R172): the laws of the padding functions, and the PAD and UNPAD engine
steps that apply them. -/

namespace Sys2Proof.Machine

/-! ### The padding functions -/

/-- Settles O37: the bounds and the alignment are `padLen`'s laws; on an aligned length the remainder taken off is 0. -/
theorem padLenIsAtLeastOneAndAligns : Obligations.PadLenIsAtLeastOneAndAligns := by
  intro len bs h
  refine ⟨rfl, padLen_pos len bs h, padLen_le len bs, add_padLen_mod len bs h, fun haligned => ?_⟩
  rw [padLen, haligned, Nat.sub_zero]

/-- Settles O39: the split of the data at the end of the scan; `k` zero bytes are the empty sequence followed by them. -/
theorem removeZeroStripsExactlyTheTrailingZeros : Obligations.RemoveZeroStripsExactlyTheTrailingZeros :=
  fun data => ⟨⟨_, removeZero_append data⟩, removeZero_last data, fun k => removeZero_unique _ [] k rfl (by simp)⟩

/-- Settles O40: the empty sequence, an invalid last byte and a valid one. -/
theorem removePkcs7ReadsTheLastByte : Obligations.RemovePkcs7ReadsTheLastByte := by
  intro data bs
  refine ⟨?_, fun v hlast => ⟨removePkcs7_invalid data bs v hlast, removePkcs7_valid data bs v hlast⟩⟩
  rintro rfl
  exact removePkcs7_nil bs

/-- Not to end in `x` is to be empty or to end in another value. -/
theorem getLast?_ne_some_iff {α : Type} (l : List α) (x : α) :
    l.getLast? ≠ some x ↔ l = [] ∨ ∃ y, l.getLast? = some y ∧ y ≠ x := by
  cases h : l.getLast? with
  | none => simp [List.getLast?_eq_none_iff.mp h]
  | some y =>
    have hl : l ≠ [] := by
      rintro rfl
      cases h
    simp [hl]

/-- Settles O38: the four laws of R172, each a lemma about the padding functions. -/
theorem paddingLaws : Obligations.PaddingLaws := by
  intro bs data h1 h255
  refine ⟨fun p hp h5 => ?_, fun p hp h5 => removePad_applyPad bs data p h1 h255 hp h5, removePad_applyPad_zero bs data,
    (removeZero_eq_self_iff data).trans (getLast?_ne_some_iff data 0),
    fun p hp _ r => removePad_length_lt bs data r p hp⟩
  obtain ⟨haligned, hlonger⟩ := applyPad_aligned bs data p h1 hp h5
  exact ⟨haligned, applyPad_length bs data p hp h5, hlonger⟩

/-! ### The PAD step -/

/-- Settles O29: in the invariant `PAD` is the code of a scheme, whose clause gives the sequence that `applyPad` makes; the
result is whole blocks, so that the count of blocks is their quotient. -/
theorem padStepAppliesThePadding : Obligations.PadStepAppliesThePadding := by
  intro P m padded hV hI hp hnone hzero hpkcs
  obtain ⟨sch, -, h5, hcode, hstep, haligned, hle⟩ := pad_shape hV hI hp
  have hpadded : padded = applyPad P.B m.inp sch := by
    cases sch with
    | identity => exact hnone hcode
    | zero => exact hzero hcode
    | pkcs5 =>
      rw [hpkcs (.inl hcode), h5 rfl]
      rfl
    | pkcs7 => exact hpkcs (.inr hcode)
  rw [← hpadded] at hstep haligned hle
  rw [ceilDiv_of_mod_eq_zero _ _ (valid_pos hV) haligned] at hstep
  exact ⟨hstep, haligned, hle⟩

/-! ### The UNPAD step -/

section Unpad
variable {P : Params} {m : Mpe} {sch : PadScheme} (hp : m.phase = .unpad) (hcode : m.pad = schemeCode sch)
include hp hcode

/-- Where the scheme's remover gives a result, the UNPAD step puts it out and completes (R171). -/
theorem engineStep_unpad_some {r : Bytes} (hr : removePad P.B m.out sch = some r) :
    engineStep P m = .stepped (complete { m with out := r }) [] := by
  rw [engineStep_unpad hp, unpadStep, (schemeOf_eq_some _ _).mpr hcode]
  simp only [hr]

/-- Where the scheme's remover says `invalid`, the UNPAD step enters `InvalidPadding` (R171, R238). -/
theorem engineStep_unpad_none (hr : removePad P.B m.out sch = none) :
    engineStep P m = .stepped (fail P .invalidPadding m) [] := by
  rw [engineStep_unpad hp, unpadStep, (schemeOf_eq_some _ _).mpr hcode]
  simp only [hr]

end Unpad

/-- Settles O30: each clause names the scheme of `PAD`'s code and what its remover makes of `OUT`; PKCS5 and PKCS7 share the
remover of R167, with the block size 8 or `B`. -/
theorem unpadStepRemovesThePadding : Obligations.UnpadStepRemovesThePadding := by
  intro P m hp
  refine ⟨fun hcode => engineStep_unpad_some (sch := .identity) hp hcode rfl, fun r n hcode hout hlast => ?_,
    fun bs hbs => ?_⟩
  · exact engineStep_unpad_some (sch := .zero) hp hcode (congrArg some (removeZero_unique m.out r n hout hlast))
  · obtain ⟨sch, hcode, hremove⟩ : ∃ sch, m.pad = schemeCode sch ∧ removePad P.B m.out sch = removePkcs7 m.out bs := by
      rcases hbs with ⟨hcode, rfl⟩ | ⟨hcode, rfl⟩
      · exact ⟨.pkcs5, hcode, rfl⟩
      · exact ⟨.pkcs7, hcode, rfl⟩
    refine ⟨fun v hlast h1 hbound hlen => ?_, fun hinvalid => ?_⟩
    · exact engineStep_unpad_some hp hcode (hremove.trans (removePkcs7_valid m.out bs v hlast h1 hbound hlen))
    · refine engineStep_unpad_none hp hcode (hremove.trans ?_)
      rcases hinvalid with hempty | ⟨v, hlast, hv⟩
      · rw [hempty, removePkcs7_nil]
      · exact removePkcs7_invalid m.out bs v hlast (hv.imp_left fun h => by simp [h])

end Sys2Proof.Machine
end

section
/-! PROOFS. The block modes (spec 44_block_modes.md R181 to R189): the CBC and ECB block steps, and what the reference
functions of the modes keep, repeat and undo. -/

namespace Sys2Proof.Machine

/-! ### The block steps -/

/-- Settles O32: in RUN with blocks left the engine takes the step of `MODE` and `DIR`, and its adapter call gets a whole
block. -/
theorem cbcStepsChainTheCiphertext : Obligations.CbcStepsChainTheCiphertext := by
  rintro P m _ hp hb hmode hfb hin rfl
  exact ⟨fun hd => (engineStep_mode hfb .cbc hp hb hmode hd).trans (cbcEncStep_ok hfb hin),
    fun hd => (engineStep_mode hfb .cbc hp hb hmode hd).trans (cbcDecStep_ok hin)⟩

/-- Settles O33, by the two steps of ECB, which take a whole block as those of CBC do and leave `FB` alone. -/
theorem ecbStepsTransformEachBlockAlone : Obligations.EcbStepsTransformEachBlockAlone := by
  rintro P m _ hp hb hmode hfb hin rfl
  exact ⟨fun hd => (engineStep_mode hfb .ecb hp hb hmode hd).trans (ecbEncStep_ok hin),
    fun hd => (engineStep_mode hfb .ecb hp hb hmode hd).trans (ecbDecStep_ok hin)⟩

/-! ### The length of the output -/

section Length
variable {P : Params} (hV : P.Valid) (md : Mode) (k v s : Bytes) (hv : md ≠ .ecb → v.length = P.B)
  (hs : blockMode md = true → s.length % P.B = 0)
include hV hv hs

theorem modeEnc_length : (modeEnc P md k v s).length = s.length := by
  have hB := valid_pos hV
  cases md with
  | cbc => exact cbcEncBlocks_length P hB k s v (hv (by decide)) (hs rfl)
  | ecb => exact flatMap_blocks_length P hB _ (enc_length P k) s (hs rfl)
  | cfb => exact streamBlocks_length P hB k _ (keepsWidth_cfbEnc P) s v (hv (by decide))
  | ofb => exact streamBlocks_length P hB k _ (keepsWidth_ofb P) s v (hv (by decide))
  | ctr => exact streamBlocks_length P hB k _ (keepsWidth_ctr P) s v (hv (by decide))

theorem modeDec_length : (modeDec P md k v s).length = s.length := by
  have hB := valid_pos hV
  cases md with
  | cbc => exact cbcDecBlocks_length P hB k s v (hv (by decide)) (hs rfl)
  | ecb => exact flatMap_blocks_length P hB _ (dec_length P k) s (hs rfl)
  | cfb => exact streamBlocks_length P hB k _ (keepsWidth_cfbDec P) s v (hv (by decide))
  | ofb => exact streamBlocks_length P hB k _ (keepsWidth_ofb P) s v (hv (by decide))
  | ctr => exact streamBlocks_length P hB k _ (keepsWidth_ctr P) s v (hv (by decide))

end Length

/-- Settles O41, mode by mode. -/
theorem modesKeepTheLength : Obligations.ModesKeepTheLength :=
  fun _ md k v s hV hv hs => ⟨modeEnc_length hV md k v s hv hs, modeDec_length hV md k v s hv hs⟩

/-! ### ECB block by block -/

theorem ne_nil_of_lt_div {B i : Nat} {s : Bytes} (hi : i < s.length / B) : s ≠ [] := by
  rintro rfl
  simp at hi

/-- Where every block is treated alone, output block `i` is made of input block `i` (R188): by induction on `i`, the
first block taken off at each step. -/
theorem flatMap_blocks_block {B : Nat} (hB : 0 < B) {f : Bytes → Bytes}
    (hf : ∀ x : Bytes, x.length = B → (f x).length = B) {s : Bytes} (hs : s.length % B = 0) {i : Nat}
    (hi : i < s.length / B) :
    (((blocksOf B s).flatMap f).drop (i * B)).take B = f ((s.drop (i * B)).take B) := by
  induction i generalizing s with
  | zero =>
    have hne := ne_nil_of_lt_div hi
    have hy := hf _ (take_length_of_aligned B s hne hs)
    rw [blocksOf_cons B hB s hne, List.flatMap_cons, Nat.zero_mul, List.drop_zero, List.drop_zero, List.take_left' hy]
  | succ i ih =>
    have hne := ne_nil_of_lt_div hi
    have hy := hf _ (take_length_of_aligned B s hne hs)
    have hi' : i < (s.drop B).length / B := by
      have hle : B ≤ s.length := Nat.le_of_dvd (List.length_pos_iff.mpr hne) (Nat.dvd_of_mod_eq_zero hs)
      have hdiv := Nat.div_eq_sub_div hB hle
      rw [List.length_drop]
      omega
    rw [blocksOf_cons B hB s hne, List.flatMap_cons, Nat.succ_mul, Nat.add_comm, ← List.drop_drop, ← List.drop_drop,
      List.drop_left' hy, ih (drop_aligned B s hs) hi']

/-- Settles O42: each output block is a function of its input block alone. -/
theorem ecbIsDeterministicPerBlock : Obligations.EcbIsDeterministicPerBlock := by
  intro P k v s i j hV hs hi hj hij
  have hB := valid_pos hV
  have hsame : ∀ f : Bytes → Bytes, (∀ x : Bytes, x.length = P.B → (f x).length = P.B) →
      (((blocksOf P.B s).flatMap f).drop (i * P.B)).take P.B =
        (((blocksOf P.B s).flatMap f).drop (j * P.B)).take P.B := by
    intro f hf
    rw [flatMap_blocks_block hB hf hs hi, flatMap_blocks_block hB hf hs hj, hij]
  exact ⟨hsame _ (enc_length P k), hsame _ (dec_length P k)⟩

/-! ### The round trip under `AdapterInverse` -/

section RoundTrip
variable {P : Params} (hV : P.Valid) (hinv : P.AdapterInverse) {k : Bytes} (hk : P.keyOk k = true)
include hV hinv hk

/-- CBC decryption takes the chaining value off again, and chains the ciphertext that encryption chained. -/
theorem cbcDecBlocks_cbcEncBlocks (s c : Bytes) (hc : c.length = P.B) (hs : s.length % P.B = 0) :
    cbcDecBlocks P k c (blocksOf P.B (cbcEncBlocks P k c (blocksOf P.B s))) = s := by
  have hB := valid_pos hV
  induction s using blocks_induction P.B hB generalizing c with
  | nil => rw [blocksOf_nil P.B hB, cbcEncBlocks, blocksOf_nil P.B hB, cbcDecBlocks]
  | cons s hne ih =>
    have htake := take_length_of_aligned P.B s hne hs
    have hx : (xorBytes c (s.take P.B)).length = P.B := by rw [xorBytes_length, hc, htake, Nat.min_self]
    have hy := enc_length P k _ hx
    rw [blocksOf_cons P.B hB s hne, cbcEncBlocks, blocksOf_append P.B hB _ _ hy, cbcDecBlocks,
      ih _ hy (drop_aligned _ _ hs), dec_enc P hinv k _ hk hx, xorBytes_comm c, xorBytes_xorBytes _ _ (by omega),
      List.take_append_drop]

/-- ECB decryption undoes ECB encryption block by block. -/
theorem flatMap_dec_flatMap_enc (s : Bytes) (hs : s.length % P.B = 0) :
    (blocksOf P.B ((blocksOf P.B s).flatMap (P.enc k))).flatMap (P.dec k) = s := by
  have hB := valid_pos hV
  induction s using blocks_induction P.B hB with
  | nil => rw [blocksOf_nil P.B hB, List.flatMap_nil, blocksOf_nil P.B hB, List.flatMap_nil]
  | cons s hne ih =>
    have htake := take_length_of_aligned P.B s hne hs
    rw [blocksOf_cons P.B hB s hne, List.flatMap_cons, blocksOf_append P.B hB _ _ (enc_length P k _ htake),
      List.flatMap_cons, ih (drop_aligned _ _ hs), dec_enc P hinv k _ hk htake, List.take_append_drop]

/-- The block modes decrypt what they encrypted (R189). -/
theorem modeDec_modeEnc {md : Mode} {v s : Bytes} (hmd : blockMode md = true) (hv : md ≠ .ecb → v.length = P.B)
    (hs : s.length % P.B = 0) : modeDec P md k v (modeEnc P md k v s) = s := by
  cases md with
  | cbc => exact cbcDecBlocks_cbcEncBlocks hV hinv hk s v (hv (by decide)) hs
  | ecb => exact flatMap_dec_flatMap_enc hV hinv hk s hs
  | cfb | ofb | ctr => cases hmd

end RoundTrip

/-- Padding removal gives back what was padded, but for the trailing zeros that Zero padding loses (R172). -/
theorem removePad_applyPad_eq {P : Params} {sch : PadScheme} {pad : Byte} (hV : P.Valid) (hpad : pad = schemeCode sch)
    (h5 : sch = .pkcs5 → P.B = 8) (data : Bytes) :
    removePad P.B (applyPad P.B data sch) sch = some (if pad = 2 then removeZero data else data) := by
  obtain ⟨h1, h255, -⟩ := hV
  subst hpad
  by_cases hz : sch = .zero
  · subst hz
    exact removePad_applyPad_zero P.B data
  · rw [removePad_applyPad P.B data sch h1 h255 hz h5, if_neg]
    cases sch <;> simp_all [schemeCode]

/-- What the padding adder gives in a transformation that starts is whole blocks: with None the alignment check asked
for them (R141, R170). -/
theorem applyPad_aligned_of_started {P : Params} {m : Mpe} {sch : PadScheme} (hV : P.Valid)
    (h : startError P .encrypt m = none) (hblock : inBlockMode m) (hpad : m.pad = schemeCode sch)
    (h5 : sch = .pkcs5 → P.B = 8) : (applyPad P.B m.inp sch).length % P.B = 0 := by
  by_cases hid : sch = .identity
  · subst hid
    exact ((startError_eq_none _ _ _).mp h).2 hblock (.inr hpad)
  · exact (applyPad_aligned P.B m.inp sch (valid_pos hV) hid h5).1

section BlockTransform
variable {P : Params} {m : Mpe} {md : Mode} {sch : PadScheme} (hmode : m.mode = modeCode md)
  (hpad : m.pad = schemeCode sch) (hmd : blockMode md = true)
include hmode hpad hmd

/-- A block mode's encryption that starts puts out the encrypted padded data (R148). -/
theorem transformRef_encrypt_block (h : startError P .encrypt m = none) :
    transformRef P .encrypt m = .ok (modeEnc P md m.key m.iv (applyPad P.B m.inp sch)) := by
  have hin : runInput P .encrypt md sch m.inp = applyPad P.B m.inp sch := if_pos ⟨rfl, hmd⟩
  rw [transformRef_of_no_startError h hmode hpad, hin]
  exact if_neg fun hd => nomatch hd.1

/-- A block mode's decryption that starts ends with what the padding remover makes of the decrypted data (R148). -/
theorem transformRef_decrypt_block (h : startError P .decrypt m = none) :
    transformRef P .decrypt m =
      (removePad P.B (modeDec P md m.key m.iv m.inp) sch).elim (.error .invalidPadding) .ok := by
  have hin : runInput P .decrypt md sch m.inp = m.inp := if_neg fun hd => nomatch hd.1
  rw [transformRef_of_no_startError h hmode hpad, hin]
  exact if_pos ⟨rfl, hmd⟩

end BlockTransform

/-- In a good configuration every mode but ECB has an `IV` of a block (R140). -/
theorem iv_length_of_good {P : Params} {m : Mpe} {md : Mode} (h : GoodConfig P m) (hmode : m.mode = modeCode md)
    (hne : md ≠ .ecb) : m.iv.length = P.B := by
  refine h.iv_len.resolve_left fun h2 => hne ?_
  rw [← Option.some_inj, ← modeOf_modeCode md, ← hmode]
  exact (modeOf_eq_some m.mode .ecb).mpr h2

/-- In a block mode, `Decrypt` of what `Encrypt` gave is the data, but for the loss of Zero padding (R189). -/
theorem transformRef_decrypt_of_encrypt {P : Params} {m : Mpe} {c : Bytes} (hV : P.Valid) (hinv : P.AdapterInverse)
    (hblock : inBlockMode m) (h : transformRef P .encrypt m = .ok c) :
    transformRef P .decrypt { m with inp := c } = .ok (if m.pad = 2 then removeZero m.inp else m.inp) := by
  cases hstart : startError P .encrypt m with
  | some e =>
    rw [transformRef_of_startError hstart] at h
    cases h
  | none =>
    have hgood := ((startError_eq_none _ _ _).mp hstart).1
    obtain ⟨md, hmode⟩ := mode_of_good hgood
    obtain ⟨sch, -, hpad, h5⟩ := scheme_of_good hgood
    have hmd := (inBlockMode_iff hmode).mp hblock
    have hiv := iv_length_of_good hgood hmode
    have hpadded := applyPad_aligned_of_started hV hstart hblock hpad h5
    rw [transformRef_encrypt_block hmode hpad hmd hstart] at h
    have hc : modeEnc P md m.key m.iv (applyPad P.B m.inp sch) = c := Except.ok.inj h
    have hc_aligned : c.length % P.B = 0 := by
      rw [← hc, modeEnc_length hV md _ _ _ hiv fun _ => hpadded, hpadded]
    have hstart' : startError P .decrypt { m with inp := c } = none :=
      (startError_eq_none _ _ _).mpr ⟨{ hgood with }, fun _ _ => hc_aligned⟩
    have hdec : modeDec P md m.key m.iv c = applyPad P.B m.inp sch := by
      rw [← hc, modeDec_modeEnc hV hinv hgood.key_ok hmd hiv hpadded]
    rw [transformRef_decrypt_block (m := { m with inp := c }) hmode hpad hmd hstart', hdec,
      removePad_applyPad_eq hV hpad h5]
    rfl

/-- Settles O45: the two modes block by block, and the reference functions through the MPE that holds the configuration
and the data. -/
theorem blockModesRoundTripUnderAdapterInverse : Obligations.BlockModesRoundTripUnderAdapterInverse := by
  intro P mode pad k v data hV hinv
  refine ⟨fun md s hmd hk hv hs => modeDec_modeEnc hV hinv hk hmd hv hs, fun c hblock h => ?_⟩
  exact transformRef_decrypt_of_encrypt (m := { configured P mode pad k v with inp := data }) hV hinv hblock h

end Sys2Proof.Machine
end

section
/-! PROOFS. The stream modes (spec 45_stream_modes.md R200 to R210): the CFB, OFB and CTR block steps, the counter, and
what the reference functions of the modes put out and undo. -/

namespace Sys2Proof.Machine

/-! ### The block steps -/

/-- Settles O34: in RUN with blocks left the engine takes the stream step of `MODE` and `DIR`; CFB shifts the register by
the segment's length. -/
theorem cfbStepsFeedTheCiphertextBack : Obligations.CfbStepsFeedTheCiphertextBack := by
  rintro P m _ _ _ _ hp hb hmode hfb rfl rfl rfl rfl
  have hseg : (m.inp.take (min P.B m.inp.length)).length = min P.B m.inp.length := by
    rw [List.length_take]
    omega
  refine ⟨fun hd => ?_, fun hd => ?_⟩
  · have hstep := (engineStep_mode hfb .cfb hp hb hmode hd).trans (streamStep_ok P cfbEncNext m hfb)
    rwa [cfbEncNext, hseg] at hstep
  · have hstep := (engineStep_mode hfb .cfb hp hb hmode hd).trans (streamStep_ok P cfbDecNext m hfb)
    rwa [cfbDecNext, hseg] at hstep

/-- Settles O35, by the steps of OFB and CTR, which do not look at `DIR`. -/
theorem ofbAndCtrStepsAdvanceTheRegister : Obligations.OfbAndCtrStepsAdvanceTheRegister := by
  rintro P m _ _ _ hp hb hfb rfl rfl rfl
  exact ⟨fun hmode => (engineStep_mode hfb .ofb hp hb hmode rfl).trans (streamStep_ok P ofbNext m hfb),
    fun hmode => (engineStep_mode hfb .ctr hp hb hmode rfl).trans (streamStep_ok P ctrNext m hfb)⟩

/-! ### The counter -/

/-- Settles O36: the two laws of `incBe`. -/
theorem incrementIsBigEndianAddOne : Obligations.IncrementIsBigEndianAddOne :=
  fun c => ⟨incBe_length c, beNat_incBe c⟩

@[simp] theorem incBe_iterate_length (j : Nat) (c : Bytes) : (incBe^[j] c).length = c.length := by
  induction j with
  | zero => rfl
  | succ j ih => rw [Function.iterate_succ_apply', incBe_length, ih]

theorem beNat_lt (c : Bytes) : c.foldl (fun n b => 256 * n + b.toNat) 0 < 256 ^ c.length := by
  rw [foldl_beNat, ← List.length_reverse]
  exact leNat_lt c.reverse

/-- `j` increments add `j` to the big-endian number (R205, R206). -/
theorem beNat_incBe_iterate (j : Nat) (c : Bytes) :
    (incBe^[j] c).foldl (fun n b => 256 * n + b.toNat) 0 =
      (c.foldl (fun n b => 256 * n + b.toNat) 0 + j) % 256 ^ c.length := by
  induction j with
  | zero => exact (Nat.mod_eq_of_lt (beNat_lt c)).symm
  | succ j ih =>
    rw [Function.iterate_succ_apply', beNat_incBe, ih, incBe_iterate_length, Nat.mod_add_mod, Nat.add_assoc]

/-! ### CTR block by block -/

/-- Output block `j` of CTR is made of input block `j` and the register incremented `j` times (R210): by induction on `j`,
the first block taken off at each step. -/
theorem streamBlocks_ctr_block {P : Params} (hB : 0 < P.B) (k r s : Bytes) (j : Nat) (hr : r.length = P.B)
    (hj : j * P.B < s.length) :
    ((streamBlocks P k (fun r _ _ _ => incBe r) r (blocksOf P.B s)).drop (j * P.B)).take P.B =
      xorBytes ((s.drop (j * P.B)).take P.B) (P.enc k (incBe^[j] r)) := by
  induction j generalizing r s with
  | zero =>
    have hne : s ≠ [] := List.ne_nil_of_length_pos (by omega)
    rw [Nat.zero_mul, List.drop_zero, List.drop_zero]
    exact (streamBlocks_split P hB k _ r s hne hr).1
  | succ j ih =>
    have hne : s ≠ [] := List.ne_nil_of_length_pos (by omega)
    rw [Nat.succ_mul] at hj
    have hj' : j * P.B < (s.drop P.B).length := by
      rw [List.length_drop]
      omega
    rw [Nat.succ_mul, Nat.add_comm, ← List.drop_drop, ← List.drop_drop, (streamBlocks_split P hB k _ r s hne hr).2,
      Function.iterate_succ_apply]
    exact ih (incBe r) (s.drop P.B) ((incBe_length r).trans hr) hj'

/-- Settles O43: the counter of block `j` is the IV incremented `j` times. -/
theorem ctrKeystreamIsTheIvPlusTheBlockNumber : Obligations.CtrKeystreamIsTheIvPlusTheBlockNumber := by
  intro P k v s j hV hv hj
  refine ⟨incBe^[j] v, (incBe_iterate_length j v).trans hv, ?_, streamBlocks_ctr_block (valid_pos hV) k v s j hv hj⟩
  rw [beNat_incBe_iterate, hv]

/-! ### The round trip -/

section RoundTrip
variable {P : Params} (hV : P.Valid) (k : Bytes)
include hV

/-- A stream mode undoes itself when the decrypting side makes of a ciphertext segment the register that the encrypting side
made of it: both then run the same keystream, and XOR with it twice is the data. -/
theorem streamBlocks_streamBlocks (encNext decNext : Bytes → Bytes → Bytes → Bytes → Bytes)
    (hwidth : KeepsWidth P encNext) (hnext : ∀ r ks x y, decNext r ks y x = encNext r ks x y) (s r : Bytes)
    (hr : r.length = P.B) :
    streamBlocks P k decNext r (blocksOf P.B (streamBlocks P k encNext r (blocksOf P.B s))) = s := by
  have hB := valid_pos hV
  induction s using blocks_induction P.B hB generalizing r with
  | nil => rw [blocksOf_nil P.B hB, streamBlocks, blocksOf_nil P.B hB, streamBlocks]
  | cons s hne ih =>
    obtain ⟨htake, hdrop⟩ := streamBlocks_split P hB k encNext r s hne hr
    have hk := enc_length P k r hr
    have hx : (s.take P.B).length ≤ P.B := List.length_take_le _ _
    have hy : (xorBytes (s.take P.B) (P.enc k r)).length = (s.take P.B).length := by
      rw [xorBytes_length]
      omega
    have hout : streamBlocks P k encNext r (blocksOf P.B s) ≠ [] := by
      rw [← List.length_pos_iff, streamBlocks_length P hB k encNext hwidth s r hr]
      exact List.length_pos_iff.mpr hne
    have hback : xorBytes (xorBytes (s.take P.B) (P.enc k r)) (P.enc k r) = s.take P.B :=
      xorBytes_xorBytes _ _ (by omega)
    rw [blocksOf_cons P.B hB _ hout, streamBlocks, htake, hdrop, hback, hnext, ih _ (hwidth _ _ _ _ hr hk hx hy),
      List.take_append_drop]

/-- The stream modes decrypt what they encrypted, with no assumption on the adapter (R209). -/
theorem modeDec_modeEnc_stream {md : Mode} {v : Bytes} (hmd : blockMode md = false) (hv : v.length = P.B) (s : Bytes) :
    modeDec P md k v (modeEnc P md k v s) = s := by
  cases md with
  | cbc | ecb => cases hmd
  | cfb => exact streamBlocks_streamBlocks hV k _ _ (keepsWidth_cfbEnc P) (fun _ _ _ _ => rfl) s v hv
  | ofb => exact streamBlocks_streamBlocks hV k _ _ (keepsWidth_ofb P) (fun _ _ _ _ => rfl) s v hv
  | ctr => exact streamBlocks_streamBlocks hV k _ _ (keepsWidth_ctr P) (fun _ _ _ _ => rfl) s v hv

end RoundTrip

/-- Settles O44: OFB and CTR have one function for both directions, and each stream mode has its round trip. -/
theorem streamModesRoundTrip : Obligations.StreamModesRoundTrip :=
  fun _ k _ s hV hv => ⟨rfl, rfl, fun _ hmd => modeDec_modeEnc_stream hV k hmd hv s⟩

end Sys2Proof.Machine
end

section
/-! PROOFS. Reset and CLEAR (spec 70_reset_and_hazards.md R260 and R261): the reset input acts in every phase, CLEAR only on
an idle engine, and both leave the MPE at its reset values. -/

namespace Sys2Proof.Machine

/-- Settles O8: the step of a reset event writes `Mpe.reset`, whose fields are the table R41. -/
theorem resetPutsEveryPieceAtItsResetValue : Obligations.ResetPutsEveryPieceAtItsResetValue :=
  fun _ _ hreset => step_of_assertReset hreset

/-- On an idle engine the phase check of CLEAR passes, so it writes the reset values and answers 0 (R92, R106). -/
theorem exec_clear_of_idle {s : State} (hp : s.mpe.phase = .build ∨ s.mpe.phase = .ready) :
    exec .clear s = .next { s with mpe := State.reset.mpe, resps := s.resps ++ [0#32] } := by
  have haccepted : cmdOf Config.params .clear s.mpe = (Mpe.reset Config.params, ackWord 0) :=
    gated_of_accepted _ ((phaseCheck_idle _).mpr hp)
  rw [exec_eq, haccepted, ← ackWord_zero]
  rfl

/-- Settles O16: the phase decides between CLEAR's two answers; the reset input meets no phase check. -/
theorem clearReachesTheResetState : Obligations.ClearReachesTheResetState :=
  fun _ => ⟨exec_clear_of_idle, exec_of_busy (by decide), fun _ hreset => step_of_assertReset hreset⟩

end Sys2Proof.Machine
end
